-- ==== Sys2Proof/Word.lean ====
section
/-! DEFINITION. The word types of the block: every value is an unsigned bit vector (00_scope.md rules R6 and R9). -/

namespace Sys2Proof

/-- The unit of every transfer: a 32-bit unsigned value (00_scope.md rules R6 and R17). -/
abbrev Word := BitVec 32

/-- A byte; bytes appear only in the CRC serialisation (20_memory.md rule R47). -/
abbrev Byte := BitVec 8

/-- A field value: 64 bits (00_scope.md rule R6). -/
abbrev DWord := BitVec 64

/-- A word offset from CODEC_BASE: 17 bits (00_scope.md rule R6, 30_encoding.md rule R63). -/
abbrev Offset := BitVec 17

end Sys2Proof
end

