-- ==== Sys2Proof/Config.lean ====
section
/-! DEFINITION. The parameters of the block (00_scope.md rule R7): fixed for one instance, changed by no
operation and by no reset (70_reset_and_hazards.md rule R145). -/

namespace Sys2Proof

/-- CRC_WORD_ORDER: how a word is serialised into bytes for the CRC (42_crc_validator.md rule R107). -/
inductive WordOrder where
  | leBytes
  | beBytes
  deriving DecidableEq, Repr

/-- The parameters of 00_scope.md rule R7 that have a default. CODEC_BASE, which has none, is
`Config.codecBase`. -/
structure Params where
  /-- N_BUF_WORDS: the number of words of BUF. -/
  nBufWords : Nat
  /-- CRC_POLY, in reflected form. -/
  crcPoly : Word
  /-- CRC_INIT. -/
  crcInit : Word
  /-- CRC_XOROUT. -/
  crcXorout : Word
  /-- CRC_WORD_ORDER. -/
  crcWordOrder : WordOrder
  deriving DecidableEq, Repr

/-- The defaults of 00_scope.md rule R7, the CRC ones from general knowledge. PRESUMED, unsafe: the model's reset state
is that of the default instance (assumption log 4). -/
def Params.default : Params where
  nBufWords := 16
  crcPoly := 0xEDB88320#32
  crcInit := 0xFFFFFFFF#32
  crcXorout := 0xFFFFFFFF#32
  crcWordOrder := .leBytes

/-- The legal values of rule R7: N_BUF_WORDS is 3 to 65536; every value of the others is legal. -/
def Params.wf (p : Params) : Bool :=
  decide (3 ≤ p.nBufWords) && decide (p.nBufWords ≤ 65536)

/-- CODEC_BASE: the word address of the window on the host's bus. The spec leaves it OPEN (00_scope.md rule R7,
20_memory.md rule R54), so it is a constant of which nothing is known (assumption log 5). -/
opaque Config.codecBase : Nat

end Sys2Proof
end

