-- ==== Sys2Proof/Format.lean ====
section
/-! DEFINITION. The two encoding formats of 30_encoding.md as data: a host transaction (format T, rule R63), a
command word (format C, rule R64), and the events that reach the block from outside. -/

namespace Sys2Proof

/-- Format T: one host transaction. A read carries no DATA (30_encoding.md rule R63, 00_scope.md rule R15). -/
inductive Txn where
  | read (off : Offset)
  | write (off : Offset) (data : Word)
  deriving DecidableEq, Repr

/-- What reaches the block from outside, one at a time: a host transaction (00_scope.md rule R14) or the block
reset, which falls between transactions (70_reset_and_hazards.md rule R144). -/
inductive Event where
  | access (t : Txn)
  | reset
  deriving DecidableEq, Repr

/-- A unit the decoder reads: a transaction, or a command word by itself, which reaches the block as the DATA of
a write to CMD (30_encoding.md rule R64). -/
inductive Code where
  | transaction (t : Txn)
  | command (d : Word)
  deriving DecidableEq, Repr

/-- Why the decoder rejects a code. -/
inductive Reject where
  /-- OFF is at or above 0x100 + N_BUF_WORDS (40_host_access.md rule R84). -/
  | outsideWindow
  deriving DecidableEq, Repr

end Sys2Proof
end

