-- ==== Sys2Proof/Machine/State.lean ====
section
/-! DEFINITION. The state of the block as the record of 10_state.md rule R44, in its two units (00_scope.md rule
R1), with the model's own fields beside it, and the state after reset (70_reset_and_hazards.md rule R143). -/

namespace Sys2Proof.Machine

/-- The error codes of a rejected command, the values ERRCODE holds (60_exceptions.md rule R126). The codes 4 to
7 are never produced (10_state.md rule R24; assumption log 10). -/
inductive ErrCode where
  | none
  | illegalOp
  | badWidth
  | outOfBuffer
  deriving DecidableEq, Repr

/-- The validator's position in the block framing (10_state.md rule R34). The codes 5 to 7 are never held
(assumption log 10). -/
inductive CvState where
  | idle
  | hdr1
  | hcrc
  | body
  | bcrc
  deriving DecidableEq, Repr

/-- The codec's registers (10_state.md rules R23 to R31). -/
structure Codec where
  /-- CTRL.RCHK_EN (rule R23). -/
  rchkEn : Bool
  /-- STATUS.ERR (rule R24). -/
  err : Bool
  /-- STATUS.ERRCODE (rule R24). -/
  errcode : ErrCode
  /-- ERRCNT (rule R26). -/
  errcnt : Word
  /-- VAL_HI ++ VAL_LO (rule R27). -/
  val : DWord
  /-- RES_HI ++ RES_LO (rule R28). -/
  res : DWord
  /-- VIOL_COUNT (rule R29). -/
  viol : Word
  /-- BUF[0], BUF[1], ... in index order (rule R31): an array of registers (assumption log 6). -/
  buf : List Word
  deriving DecidableEq, Repr

/-- The validator's registers (10_state.md rules R33 to R40). -/
structure Validator where
  /-- CV_STATUS.STATE (rules R33 and R34). -/
  state : CvState
  /-- CV_STATUS.HDR_OK. -/
  hdrOk : Bool
  /-- CV_STATUS.HDR_BAD. -/
  hdrBad : Bool
  /-- CV_STATUS.BODY_OK. -/
  bodyOk : Bool
  /-- CV_STATUS.BODY_BAD. -/
  bodyBad : Bool
  /-- CV_STATUS.TERM. -/
  term : Bool
  /-- CV_STATUS.BLOCKID. -/
  blockid : BitVec 8
  /-- CV_SIZE (rule R35). -/
  size : BitVec 24
  /-- CV_REMAIN (rule R36). -/
  remain : BitVec 24
  /-- CV_ACC: the raw accumulator (rule R37). -/
  acc : Word
  /-- CV_BLKCNT (rule R38). -/
  blkcnt : Word
  /-- CV_HDRERR (rule R39). -/
  hdrerr : Word
  /-- CV_BODYERR (rule R40). -/
  bodyerr : Word
  deriving DecidableEq, Repr

/-- The state: the two units, and the model's own fields. `params` is the instance's parameters, which no step
changes (assumption log 3); `pending` holds the events not yet performed, oldest first, and `returned` the words
reads have returned to the host, oldest first (assumption log 1). The block has no other state (rule R43). -/
structure State where
  params : Params
  codec : Codec
  cv : Validator
  pending : List Event
  returned : List Word
  deriving DecidableEq, Repr

/-- Nothing of this block faults: it takes no trap and never stops (60_exceptions.md rules R125 and R141). -/
inductive Fault
  deriving DecidableEq, Repr

inductive Refusal where
  /-- Raised by an arm of exec whose instruction has no meaning yet. Safe: nothing is claimed about it. -/
  | notModelled (mnemonic : String)
  /-- Raised by the step and by `rd` and `wr BUF` for an offset at or above 0x100 + N_BUF_WORDS, which is not an
  access to this block; a model of the block alone refuses it (40_host_access.md rule R84). Safe: the model stops
  where a platform would go on. -/
  | outsideWindow
  deriving DecidableEq, Repr

/-- The codec after reset (70_reset_and_hazards.md rule R143), with a buffer of n words. -/
def Codec.reset (n : Nat) : Codec where
  rchkEn := false
  err := false
  errcode := .none
  errcnt := 0#32
  val := 0#64
  res := 0#64
  viol := 0#32
  buf := List.replicate n 0#32

/-- The validator after reset (70_reset_and_hazards.md rule R143). -/
def Validator.reset (p : Params) : Validator where
  state := .idle
  hdrOk := false
  hdrBad := false
  bodyOk := false
  bodyBad := false
  term := false
  blockid := 0#8
  size := 0#24
  remain := 0#24
  acc := p.crcInit
  blkcnt := 0#32
  hdrerr := 0#32
  bodyerr := 0#32

/-- The state after reset of the instance with parameters p, with nothing pending and nothing returned. -/
def State.resetWith (p : Params) : State where
  params := p
  codec := Codec.reset p.nBufWords
  cv := Validator.reset p
  pending := []
  returned := []

/-- The state after reset of the default instance (00_scope.md rule R7). -/
def State.reset : State := State.resetWith Params.default

end Sys2Proof.Machine
end

