-- ==== Sys2Proof/Machine/Flags.lean ====
section
/-! DEFINITION. Status flags, counters and their packing into STATUS and CV_STATUS (10_state.md rules R10, R24,
R33, R34 and R42), and the range check of ENC (41_codec.md rule R93). -/

namespace Sys2Proof.Machine

/-- The saturating increment of every counter (00_scope.md rule R10). -/
def satinc (c : Word) : Word :=
  if c.toNat < 0xFFFFFFFF then c + 1#32 else 0xFFFFFFFF#32

/-- The code ERRCODE shows (60_exceptions.md rule R126). -/
def errCodeBits : ErrCode → BitVec 3
  | .none => 0#3
  | .illegalOp => 1#3
  | .badWidth => 2#3
  | .outOfBuffer => 3#3

/-- The code STATE shows (10_state.md rule R34). -/
def cvStateBits : CvState → BitVec 3
  | .idle => 0#3
  | .hdr1 => 1#3
  | .hcrc => 2#3
  | .body => 3#3
  | .bcrc => 4#3

/-- CTRL as read: bit 0 is RCHK_EN (10_state.md rule R23). -/
def ctrlWord (c : Codec) : Word :=
  (BitVec.ofBool c.rchkEn).setWidth 32

/-- STATUS as read: bits [3:1] ERRCODE, bit 0 ERR (10_state.md rule R24, 40_host_access.md rule R81). -/
def statusWord (c : Codec) : Word :=
  (errCodeBits c.errcode ++ BitVec.ofBool c.err).setWidth 32

/-- CV_STATUS as read (10_state.md rule R33, 40_host_access.md rule R81). -/
def cvStatusWord (v : Validator) : Word :=
  (v.blockid ++ BitVec.ofBool v.term ++ BitVec.ofBool v.bodyBad ++ BitVec.ofBool v.bodyOk ++
    BitVec.ofBool v.hdrBad ++ BitVec.ofBool v.hdrOk ++ cvStateBits v.state).setWidth 32

/-- ENC counts a range violation: the check is on and V does not fit W bits; a 64-bit field never violates
(41_codec.md rule R93). -/
def rangeViolation (rchkEn : Bool) (W : Nat) (V : DWord) : Bool :=
  rchkEn && decide (W < 64) && decide (V.toNat >>> W ≠ 0)

end Sys2Proof.Machine
end

