-- ==== Sys2Proof/Syntax.lean ====
section
/-! DEFINITION. The instructions: one constructor per row of spec/opcode_table.json, in the table's order. The
first eighteen are host transactions (format T, 30_encoding.md rule R63), the last eight are command words
(format C, rule R64), the DATA of a write to CMD. Every bit of an encoding that the table does not fix is an
operand, also where the block ignores it, so that an instruction determines its encoding. -/

namespace Sys2Proof

inductive Instr where
  /-- `rd`: a read at OFF (40_host_access.md rule R79). -/
  | rd (off : Offset)
  /-- `wr CTRL` (rule R80). -/
  | wrCtrl (d : Word)
  /-- `wr STATUS` (rule R82). -/
  | wrStatus (d : Word)
  /-- `wr CMD`: the command word d is executed (rule R85). -/
  | wrCmd (d : Word)
  /-- `wr VAL_LO` (rule R80). -/
  | wrValLo (d : Word)
  /-- `wr VAL_HI` (rule R80). -/
  | wrValHi (d : Word)
  /-- `cvfeed`: a write to CV_DATA (42_crc_validator.md rule R112). -/
  | cvfeed (w : Word)
  /-- `wr BUF[k]` (rule R80). -/
  | wrBuf (k : BitVec 16) (d : Word)
  /-- An ignored write to ERRCNT (rule R83), as every constructor down to `wrReserved080`. -/
  | wrErrcnt (d : Word)
  /-- To RES_LO or RES_HI: `o` is OFF[0]. -/
  | wrRes (o : BitVec 1) (d : Word)
  /-- To VIOL_COUNT, BUFSIZE or the reserved offsets 0x00A to 0x00F: `o` is OFF[2:0]. -/
  | wrViolBufsize (o : BitVec 3) (d : Word)
  /-- To CV_STATUS. -/
  | wrCvStatus (d : Word)
  /-- To CV_SIZE or CV_REMAIN: `o` is OFF[0]. -/
  | wrCvSizeRemain (o : BitVec 1) (d : Word)
  /-- To CV_ACC, CV_BLKCNT, CV_HDRERR or CV_BODYERR: `o` is OFF[1:0]. -/
  | wrCvAccCounters (o : BitVec 2) (d : Word)
  /-- To the reserved offsets 0x018 to 0x01F: `o` is OFF[2:0]. -/
  | wrReserved018 (o : BitVec 3) (d : Word)
  /-- To the reserved offsets 0x020 to 0x03F: `o` is OFF[4:0]. -/
  | wrReserved020 (o : BitVec 5) (d : Word)
  /-- To the reserved offsets 0x040 to 0x07F: `o` is OFF[5:0]. -/
  | wrReserved040 (o : BitVec 6) (d : Word)
  /-- To the reserved offsets 0x080 to 0x0FF: `o` is OFF[6:0]. -/
  | wrReserved080 (o : BitVec 7) (d : Word)
  /-- `nop`: OP 0; `ign` is CMD[27:0], ignored (41_codec.md rule R87, 30_encoding.md rule R72). -/
  | nop (ign : BitVec 28)
  /-- `enc`: OP 1; WIDTH, WORD_OFFSET and BIT_OFFSET (41_codec.md rule R92). -/
  | enc (width : BitVec 7) (wordOff : BitVec 16) (bitOff : BitVec 5)
  /-- `dec`: OP 2 (41_codec.md rule R97). -/
  | dec (width : BitVec 7) (wordOff : BitVec 16) (bitOff : BitVec 5)
  /-- `begin`: OP 3 (41_codec.md rule R99). -/
  | beginWrite (ign : BitVec 28)
  /-- `clrbuf`: OP 4 (41_codec.md rule R100). -/
  | clrbuf (ign : BitVec 28)
  /-- `cvrst`: OP 5 (42_crc_validator.md rule R111). -/
  | cvrst (ign : BitVec 28)
  /-- The illegal commands OP 6 and 7: `o` is CMD[28] (30_encoding.md rule R71). -/
  | illegal67 (o : BitVec 1) (ign : BitVec 28)
  /-- The illegal commands OP 8 to 15: `o` is CMD[30:28] (30_encoding.md rule R71). -/
  | illegal8F (o : BitVec 3) (ign : BitVec 28)
  deriving DecidableEq, Repr

end Sys2Proof
end

