-- ==== Sys2Proof/Decode.lean ====
section
/-! DEFINITION. Decoding, total on both formats (30_encoding.md rule R70), and after it the encoder, both written
from rules R63, R64, R68, R69 and spec/opcode_table.json. -/

namespace Sys2Proof

/-- OFF names a register of the window of 0x100 + N_BUF_WORDS words (10_state.md rules R22 and R41). -/
def inWindow (p : Params) (off : Offset) : Bool :=
  decide (off.toNat < 0x100 + p.nBufWords)

/-! ## Format C -/

/-- A field width the codec supports: 1 to 64 (00_scope.md rule R6, 30_encoding.md rule R65). -/
def legalWidth (width : BitVec 7) : Bool :=
  decide (1 ≤ width.toNat) && decide (width.toNat ≤ 64)

/-- The case distinction of 30_encoding.md rule R70 on a command word: OP is d[31:28], WIDTH d[27:21],
WORD_OFFSET d[20:5], BIT_OFFSET d[4:0] (rule R64). The decoder and the dispatch of a write to CMD share it. -/
def caseCmd {α : Type} (onNop : BitVec 28 → α) (onEnc onDec : BitVec 7 → BitVec 16 → BitVec 5 → α)
    (onBegin onClrbuf onCvrst : BitVec 28 → α) (onIllegal67 : BitVec 1 → BitVec 28 → α)
    (onIllegal8F : BitVec 3 → BitVec 28 → α) (d : Word) : α :=
  if d.extractLsb' 28 4 = 0x0#4 then onNop (d.extractLsb' 0 28)
  else if d.extractLsb' 28 4 = 0x1#4 then onEnc (d.extractLsb' 21 7) (d.extractLsb' 5 16) (d.extractLsb' 0 5)
  else if d.extractLsb' 28 4 = 0x2#4 then onDec (d.extractLsb' 21 7) (d.extractLsb' 5 16) (d.extractLsb' 0 5)
  else if d.extractLsb' 28 4 = 0x3#4 then onBegin (d.extractLsb' 0 28)
  else if d.extractLsb' 28 4 = 0x4#4 then onClrbuf (d.extractLsb' 0 28)
  else if d.extractLsb' 28 4 = 0x5#4 then onCvrst (d.extractLsb' 0 28)
  else if d.extractLsb' 29 3 = 0x3#3 then onIllegal67 (d.extractLsb' 28 1) (d.extractLsb' 0 28)
  else onIllegal8F (d.extractLsb' 28 3) (d.extractLsb' 0 28)

/-- The command a word stands for (30_encoding.md rule R70). -/
def decodeCmd (d : Word) : Instr :=
  caseCmd .nop .enc .dec .beginWrite .clrbuf .cvrst .illegal67 .illegal8F d

/-! ## Format T -/

/-- A write to the codec's registers and the reserved offsets after them, 0x000 to 0x00F. -/
def decodeCodecWrite (off : Offset) (d : Word) : Instr :=
  if off = 0x000#17 then .wrCtrl d
  else if off = 0x001#17 then .wrStatus d
  else if off = 0x002#17 then .wrCmd d
  else if off = 0x003#17 then .wrErrcnt d
  else if off = 0x004#17 then .wrValLo d
  else if off = 0x005#17 then .wrValHi d
  else if off.toNat < 0x008 then .wrRes (off.extractLsb' 0 1) d
  else .wrViolBufsize (off.extractLsb' 0 3) d

/-- A write to the validator's registers and the reserved offsets after them, 0x010 to 0x01F. -/
def decodeCvWrite (off : Offset) (d : Word) : Instr :=
  if off = 0x010#17 then .cvfeed d
  else if off = 0x011#17 then .wrCvStatus d
  else if off.toNat < 0x014 then .wrCvSizeRemain (off.extractLsb' 0 1) d
  else if off.toNat < 0x018 then .wrCvAccCounters (off.extractLsb' 0 2) d
  else .wrReserved018 (off.extractLsb' 0 3) d

/-- The meaning of a write at an offset (30_encoding.md rule R69, 40_host_access.md rule R86), one line per row
of the opcode table. -/
def decodeWrite (p : Params) (off : Offset) (d : Word) : Except Reject Instr :=
  if off.toNat < 0x010 then .ok (decodeCodecWrite off d)
  else if off.toNat < 0x020 then .ok (decodeCvWrite off d)
  else if off.toNat < 0x040 then .ok (.wrReserved020 (off.extractLsb' 0 5) d)
  else if off.toNat < 0x080 then .ok (.wrReserved040 (off.extractLsb' 0 6) d)
  else if off.toNat < 0x100 then .ok (.wrReserved080 (off.extractLsb' 0 7) d)
  else if inWindow p off then .ok (.wrBuf ((off - 0x100#17).setWidth 16) d)
  else .error .outsideWindow

/-- The meaning of a host transaction (30_encoding.md rule R69); an offset outside the window is not an access to
this block (40_host_access.md rule R84). -/
def decodeTxn (p : Params) : Txn → Except Reject Instr
  | .read off => if inWindow p off then .ok (.rd off) else .error .outsideWindow
  | .write off d => decodeWrite p off d

/-- The decoder: total, and its only rejection is `outsideWindow` (30_encoding.md rule R70). -/
def decode (p : Params) : Code → Except Reject Instr
  | .transaction t => decodeTxn p t
  | .command d => .ok (decodeCmd d)

/-- The host transaction by which a code reaches the block: a command word is written to CMD, offset 0x002
(30_encoding.md rule R64). -/
def Code.txn : Code → Txn
  | .transaction t => t
  | .command d => .write 0x002#17 d

/-! ## The encoder -/

/-- A command word whose bits [27:0] are not a descriptor. -/
def cmdWord (op : BitVec 4) (low : BitVec 28) : Word := op ++ low

/-- A command word with a descriptor (30_encoding.md rule R64). -/
def fieldWord (op : BitVec 4) (width : BitVec 7) (wordOff : BitVec 16) (bitOff : BitVec 5) : Word :=
  op ++ width ++ wordOff ++ bitOff

/-- The code of an instruction: its transaction, or its command word. -/
def encode : Instr → Code
  | .rd off => .transaction (.read off)
  | .wrCtrl d => .transaction (.write 0x000#17 d)
  | .wrStatus d => .transaction (.write 0x001#17 d)
  | .wrCmd d => .transaction (.write 0x002#17 d)
  | .wrValLo d => .transaction (.write 0x004#17 d)
  | .wrValHi d => .transaction (.write 0x005#17 d)
  | .cvfeed w => .transaction (.write 0x010#17 w)
  | .wrBuf k d => .transaction (.write (0x100#17 + k.setWidth 17) d)
  | .wrErrcnt d => .transaction (.write 0x003#17 d)
  | .wrRes o d => .transaction (.write (0x003#16 ++ o) d)
  | .wrViolBufsize o d => .transaction (.write (0x001#14 ++ o) d)
  | .wrCvStatus d => .transaction (.write 0x011#17 d)
  | .wrCvSizeRemain o d => .transaction (.write (0x009#16 ++ o) d)
  | .wrCvAccCounters o d => .transaction (.write (0x005#15 ++ o) d)
  | .wrReserved018 o d => .transaction (.write (0x003#14 ++ o) d)
  | .wrReserved020 o d => .transaction (.write (0x001#12 ++ o) d)
  | .wrReserved040 o d => .transaction (.write (0x001#11 ++ o) d)
  | .wrReserved080 o d => .transaction (.write (0x001#10 ++ o) d)
  | .nop ign => .command (cmdWord 0x0#4 ign)
  | .enc w wo bo => .command (fieldWord 0x1#4 w wo bo)
  | .dec w wo bo => .command (fieldWord 0x2#4 w wo bo)
  | .beginWrite ign => .command (cmdWord 0x3#4 ign)
  | .clrbuf ign => .command (cmdWord 0x4#4 ign)
  | .cvrst ign => .command (cmdWord 0x5#4 ign)
  | .illegal67 o ign => .command (cmdWord (0x3#3 ++ o) ign)
  | .illegal8F o ign => .command (cmdWord (0x1#1 ++ o) ign)

/-! ## The opcode table's words -/

/-- The 18-bit selector DIR ++ OFF of a transaction (30_encoding.md rule R63): bit 17 is DIR. -/
def Txn.selector : Txn → BitVec 18
  | .read off => 0x0#1 ++ off
  | .write off _ => 0x1#1 ++ off

/-- The transaction with a given selector and DATA; a read drops DATA. -/
def txnOfSelector (sel : BitVec 18) (d : Word) : Txn :=
  if sel.extractLsb' 17 1 = 0x1#1 then .write (sel.extractLsb' 0 17) d else .read (sel.extractLsb' 0 17)

/-- What `nbits` bits of the opcode table stand for: a selector (18 bits, in whole bytes at most 24) with DATA
zero, or a 32-bit command word (30_encoding.md rules R63 and R64). DESIGN CHOICE, safe: the table writes the two
formats with two lengths (assumption log 8). -/
def codeOfTable (nbits w : Nat) : Option Code :=
  if nbits ≤ 24 then
    if w < 2 ^ 18 then some (.transaction (txnOfSelector (BitVec.ofNat 18 w) 0#32)) else none
  else if nbits = 32 then
    if w < 2 ^ 32 then some (.command (BitVec.ofNat 32 w)) else none
  else none

/-- The instruction the decoder reads from a row's word, for the default parameters. -/
def decodeTableWord (nbits w : Nat) : Option Instr :=
  match codeOfTable nbits w with
  | none => none
  | some c =>
    match decode Params.default c with
    | .ok i => some i
    | .error _ => none

end Sys2Proof
end

