-- ==== Sys2Proof/Machine/Operands.lean ====
section
/-! DEFINITION. The operands of the commands: the descriptor (30_encoding.md rules R65 and R66), the field
geometry (41_codec.md rule R88), the descriptor check (rule R89), and the place of the window on the host's bus
(20_memory.md rule R54). -/

namespace Sys2Proof.Machine

/-- `mask(W)` is 2^W - 1 (00_scope.md rule R9). -/
def mask (W : Nat) : Nat := 2 ^ W - 1

/-- W of a descriptor, unsigned and never scaled (30_encoding.md rule R65). -/
def fieldWidth (width : BitVec 7) : Nat := width.toNat

/-- The global bit offset G of a descriptor (30_encoding.md rule R66, 00_scope.md rule R13). -/
def globalOffset (wordOff : BitVec 16) (bitOff : BitVec 5) : Nat :=
  32 * wordOff.toNat + bitOff.toNat

/-- The index of the word that holds the field's bit 0 (41_codec.md rule R88). -/
def fieldLo (G : Nat) : Nat := G / 32

/-- The position of the field's bit 0 in that word (41_codec.md rule R88). -/
def fieldSh (G : Nat) : Nat := G % 32

/-- The number of fragments, that is of words touched (41_codec.md rule R88). -/
def fragments (W G : Nat) : Nat := (fieldSh G + W - 1) / 32 + 1

/-- Bits [32k+31 : 32k] of an unbounded integer. -/
def wordSlice (x k : Nat) : Word := BitVec.ofNat 32 (x >>> (32 * k))

/-- `wordM(k)`: the field's bits inside word lo + k (41_codec.md rule R88). -/
def fieldMaskWord (W G k : Nat) : Word := wordSlice (mask W <<< fieldSh G) k

/-- The value's bits inside word lo + k: `(v << sh) >> 32k`, v the low W bits of V (41_codec.md rules R92 and
R94). -/
def fieldDataWord (W G : Nat) (V : DWord) (k : Nat) : Word :=
  wordSlice ((V.toNat &&& mask W) <<< fieldSh G) k

/-- The descriptor check: the error code it raises, if any, in the order of 41_codec.md rule R89. -/
def checkField (n W G : Nat) : Option ErrCode :=
  if W = 0 ∨ 64 < W then some .badWidth
  else if 32 * n < G + W then some .outOfBuffer
  else none

/-- The offset of a word address of the host's bus, if it lies in the window that starts at CODEC_BASE
(10_state.md rule R22, 20_memory.md rule R54). -/
def busOffset (p : Params) (addr : Nat) : Option Offset :=
  if Config.codecBase ≤ addr ∧ addr < Config.codecBase + 0x100 + p.nBufWords then
    some (BitVec.ofNat 17 (addr - Config.codecBase))
  else none

end Sys2Proof.Machine
end

