-- ==== Sys2Proof/Machine/Ops.lean ====
section
/-! DEFINITION. The operations the meanings share: the word buffer, the register read, the rejection of a command
(this hardware's exception) and its acknowledgement, the block reset, and the record of returned words. -/

namespace Sys2Proof.Machine

/-! ## The word buffer (10_state.md rule R31) -/

/-- BUF[k]. A list of N_BUF_WORDS words holds every k below N_BUF_WORDS (assumption log 6). -/
def readBuf (buf : List Word) (k : Nat) : Word := buf.getD k 0#32

/-- `BUF[k] <- d`. -/
def writeBuf (buf : List Word) (k : Nat) (d : Word) : List Word := buf.set k d

/-- The canonical form of the buffer: exactly N_BUF_WORDS words, so that equal buffers are equal lists (10_state.md
rule R44). -/
def Memory.wf (p : Params) (buf : List Word) : Bool := buf.length == p.nBufWords

/-- The write loop of ENC over the words of the field (41_codec.md rule R92). -/
def encodeField (W G : Nat) (V : DWord) (buf : List Word) : List Word :=
  (List.range (fragments W G)).foldl
    (fun b k =>
      writeBuf b (fieldLo G + k)
        ((readBuf b (fieldLo G + k) &&& ~~~(fieldMaskWord W G k)) ||| fieldDataWord W G V k))
    buf

/-- The buffer with every word cleared (41_codec.md rule R100). -/
def clearBuf (p : Params) : List Word := List.replicate p.nBufWords 0#32

/-- The fragments of a field put together, an unbounded integer (X of 41_codec.md rule R97). -/
def gatherField (W G : Nat) (buf : List Word) : Nat :=
  (List.range (fragments W G)).foldl
    (fun x k => x ||| ((readBuf buf (fieldLo G + k)).toNat <<< (32 * k))) 0

/-- The value DEC reads from a field, zero above bit W-1 (41_codec.md rule R97). -/
def decodeField (W G : Nat) (buf : List Word) : DWord :=
  BitVec.ofNat 64 ((gatherField W G buf >>> fieldSh G) &&& mask W)

/-! ## Register reads (40_host_access.md rule R81) -/

/-- The codec's registers, offsets 0x000 to 0x00F; CMD is write-only and the last six are reserved. -/
def readCodecReg (s : State) (n : Nat) : Word :=
  match n with
  | 0x000 => ctrlWord s.codec
  | 0x001 => statusWord s.codec
  | 0x002 => 0#32
  | 0x003 => s.codec.errcnt
  | 0x004 => s.codec.val.extractLsb' 0 32
  | 0x005 => s.codec.val.extractLsb' 32 32
  | 0x006 => s.codec.res.extractLsb' 0 32
  | 0x007 => s.codec.res.extractLsb' 32 32
  | 0x008 => s.codec.viol
  | 0x009 => BitVec.ofNat 32 s.params.nBufWords
  | _ => 0#32

/-- The validator's registers, offsets 0x010 to 0x017, and reserved offsets; CV_DATA is write-only. -/
def readCvReg (v : Validator) (n : Nat) : Word :=
  match n with
  | 0x010 => 0#32
  | 0x011 => cvStatusWord v
  | 0x012 => v.size.setWidth 32
  | 0x013 => v.remain.setWidth 32
  | 0x014 => v.acc
  | 0x015 => v.blkcnt
  | 0x016 => v.hdrerr
  | 0x017 => v.bodyerr
  | _ => 0#32

/-- `readReg(off)`. A read has no side effect (20_memory.md rule R53). -/
def readReg (s : State) (off : Offset) : Word :=
  if off.toNat < 0x010 then readCodecReg s off.toNat
  else if off.toNat < 0x100 then readCvReg s.cv off.toNat
  else if off.toNat < 0x100 + s.params.nBufWords then readBuf s.codec.buf (off.toNat - 0x100)
  else 0#32

/-- The host receives a word (assumption log 1). -/
def returnWord (w : Word) (s : State) : State := { s with returned := s.returned ++ [w] }

/-! ## Rejection and acknowledgement -/

/-- What a rejection writes: the first code since the last clear is kept, ERR is set, ERRCNT counts
(60_exceptions.md rule R127). -/
def recordError (code : ErrCode) (c : Codec) : Codec :=
  { c with
    errcode := if c.err then c.errcode else code
    err := true
    errcnt := satinc c.errcnt }

/-- `raise CmdError(code)`: the command is rejected with exactly this effect (60_exceptions.md rules R127 and
R131). -/
def cmdError (code : ErrCode) (s : State) : State :=
  { s with codec := recordError code s.codec }

/-- The acknowledgement of errors: ERR, ERRCODE and ERRCNT are cleared together (40_host_access.md rule R82,
60_exceptions.md rule R132). -/
def clearErrors (c : Codec) : Codec :=
  { c with err := false, errcode := .none, errcnt := 0#32 }

/-! ## The block reset -/

/-- The block reset (70_reset_and_hazards.md rules R143 to R145): every register takes its reset value, the
parameters stay, and what is pending and returned is the host's (assumption log 11). -/
def blockReset (s : State) : State :=
  { State.resetWith s.params with pending := s.pending, returned := s.returned }

end Sys2Proof.Machine
end

