-- ==== Sys2Proof/Machine/Codec.lean ====
section
/-! DEFINITION. The meanings of the codec's commands (41_codec.md) and of the illegal commands (30_encoding.md
rule R71). -/

namespace Sys2Proof.Machine

/-- NOP (rule R87): no state changes, whatever bits [27:0] hold. -/
def execNop (_ign : BitVec 28) (s : State) : Host.Outcome State Fault Refusal := .next s

/-- What an accepted ENC writes (rule R92): VIOL_COUNT counts a range violation (rule R93), which does not stop
the write, and the field takes the low W bits of V (rule R94). -/
def encCodec (W G : Nat) (c : Codec) : Codec :=
  { c with
    viol := if rangeViolation c.rchkEn W c.val then satinc c.viol else c.viol
    buf := encodeField W G c.val c.buf }

/-- ENC (rule R92): the descriptor check (rule R89), then the write. -/
def execEnc (width : BitVec 7) (wordOff : BitVec 16) (bitOff : BitVec 5) (s : State) :
    Host.Outcome State Fault Refusal :=
  match checkField s.params.nBufWords (fieldWidth width) (globalOffset wordOff bitOff) with
  | some code => .next (cmdError code s)
  | none => .next { s with codec := encCodec (fieldWidth width) (globalOffset wordOff bitOff) s.codec }

/-- What an accepted DEC writes (rule R97): RES, and nothing else. -/
def decCodec (W G : Nat) (c : Codec) : Codec :=
  { c with res := decodeField W G c.buf }

/-- DEC (rule R97): the descriptor check (rule R89), then the read. -/
def execDec (width : BitVec 7) (wordOff : BitVec 16) (bitOff : BitVec 5) (s : State) :
    Host.Outcome State Fault Refusal :=
  match checkField s.params.nBufWords (fieldWidth width) (globalOffset wordOff bitOff) with
  | some code => .next (cmdError code s)
  | none => .next { s with codec := decCodec (fieldWidth width) (globalOffset wordOff bitOff) s.codec }

/-- BEGIN (rule R99): VIOL_COUNT is cleared. -/
def execBegin (_ign : BitVec 28) (s : State) : Host.Outcome State Fault Refusal :=
  .next { s with codec := { s.codec with viol := 0#32 } }

/-- CLRBUF (rule R100): every one of the N_BUF_WORDS words is cleared. -/
def execClrbuf (_ign : BitVec 28) (s : State) : Host.Outcome State Fault Refusal :=
  .next { s with codec := { s.codec with buf := clearBuf s.params } }

/-- A command with OP 6 or 7 (30_encoding.md rule R71): rejected with ILLEGAL_OP. -/
def execIllegal67 (_o : BitVec 1) (_ign : BitVec 28) (s : State) : Host.Outcome State Fault Refusal :=
  .next (cmdError .illegalOp s)

/-- A command with OP 8 to 15 (30_encoding.md rule R71): rejected with ILLEGAL_OP. -/
def execIllegal8F (_o : BitVec 3) (_ign : BitVec 28) (s : State) : Host.Outcome State Fault Refusal :=
  .next (cmdError .illegalOp s)

end Sys2Proof.Machine
end

