-- ==== Sys2Proof/Machine/Crc.lean ====
section
/-! DEFINITION. The CRC function of the validator (42_crc_validator.md rules R106 and R107). -/

namespace Sys2Proof.Machine

/-- One round of the byte loop: shift right by one, and subtract the polynomial if the bit shifted out is 1. -/
def crcRound (p : Params) (c : Word) : Word :=
  if c.getLsbD 0 then (c >>> 1) ^^^ p.crcPoly else c >>> 1

/-- `crcByte(c, b)`: the byte enters at the low end, then eight rounds. -/
def crcByte (p : Params) (c : Word) (b : Byte) : Word :=
  (crcRound p)^[8] (c ^^^ b.setWidth 32)

/-- `bytes(w)` in the order CRC_WORD_ORDER (rule R107). -/
def wordBytes (p : Params) (w : Word) : List Byte :=
  match p.crcWordOrder with
  | .leBytes => [w.extractLsb' 0 8, w.extractLsb' 8 8, w.extractLsb' 16 8, w.extractLsb' 24 8]
  | .beBytes => [w.extractLsb' 24 8, w.extractLsb' 16 8, w.extractLsb' 8 8, w.extractLsb' 0 8]

/-- `crcWord(c, w)`. -/
def crcWord (p : Params) (c w : Word) : Word :=
  (wordBytes p w).foldl (crcByte p) c

/-- `crcFinal(c)`. -/
def crcFinal (p : Params) (c : Word) : Word := c ^^^ p.crcXorout

/-- The raw accumulator over a sequence of words, `foldl crcWord crcInit ws`. -/
def crcAcc (p : Params) (ws : List Word) : Word := ws.foldl (crcWord p) p.crcInit

/-- `crcWords(ws)`. -/
def crcWords (p : Params) (ws : List Word) : Word := crcFinal p (crcAcc p ws)

end Sys2Proof.Machine
end

