-- ==== Sys2Proof/Machine/Validator.lean ====
section
/-! DEFINITION. The meanings of the validator's operations (42_crc_validator.md): CVRST and CVFEED, one rule per
state of the framing. -/

namespace Sys2Proof.Machine

/-- CVRST on the validator (rule R111): every register takes its reset value. -/
def cvReset (p : Params) (_v : Validator) : Validator :=
  { state := .idle
    hdrOk := false, hdrBad := false, bodyOk := false, bodyBad := false, term := false
    blockid := 0#8, size := 0#24, remain := 0#24
    acc := p.crcInit
    blkcnt := 0#32, hdrerr := 0#32, bodyerr := 0#32 }

/-- IDLE (rule R113): w is header word 0 of a block, or the first terminator word. -/
def feedIdle (p : Params) (w : Word) (v : Validator) : Validator :=
  { v with
    hdrOk := false, hdrBad := false, bodyOk := false, bodyBad := false, term := false
    blockid := w.extractLsb' 24 8
    size := 0#24, remain := 0#24
    acc := crcWord p p.crcInit w
    state := .hdr1 }

/-- HDR1 (rule R114): w is the size word. -/
def feedHdr1 (p : Params) (w : Word) (v : Validator) : Validator :=
  { v with
    size := w.extractLsb' 0 24, remain := w.extractLsb' 0 24
    acc := crcWord p v.acc w
    state := .hcrc }

/-- HCRC (rule R115): a size of 0 is the terminator, whose third word is not checked; else w is compared with the
header's CRC. -/
def feedHcrc (p : Params) (w : Word) (v : Validator) : Validator :=
  if v.size = 0#24 then { v with term := true, acc := p.crcInit, state := .idle }
  else if crcFinal p v.acc = w then { v with hdrOk := true, acc := p.crcInit, state := .body }
  else { v with hdrBad := true, hdrerr := satinc v.hdrerr, acc := p.crcInit, state := .body }

/-- BODY (rule R116): w is a body word. CV_REMAIN is at least 1 here in every reachable state (assumption log
14). -/
def feedBody (p : Params) (w : Word) (v : Validator) : Validator :=
  { v with
    acc := crcWord p v.acc w
    remain := v.remain - 1#24
    state := if v.remain - 1#24 = 0#24 then .bcrc else .body }

/-- BCRC (rule R117): w is the body CRC word. -/
def feedBcrc (p : Params) (w : Word) (v : Validator) : Validator :=
  if crcFinal p v.acc = w then
    { v with bodyOk := true, blkcnt := satinc v.blkcnt, acc := p.crcInit, state := .idle }
  else
    { v with bodyBad := true, bodyerr := satinc v.bodyerr, blkcnt := satinc v.blkcnt,
             acc := p.crcInit, state := .idle }

/-- CVFEED on the validator (rule R112). -/
def cvFeed (p : Params) (w : Word) (v : Validator) : Validator :=
  match v.state with
  | .idle => feedIdle p w v
  | .hdr1 => feedHdr1 p w v
  | .hcrc => feedHcrc p w v
  | .body => feedBody p w v
  | .bcrc => feedBcrc p w v

/-- CVRST (rule R111): the codec's registers and STATUS are not touched. -/
def execCvrst (_ign : BitVec 28) (s : State) : Host.Outcome State Fault Refusal :=
  .next { s with cv := cvReset s.params s.cv }

/-- CVFEED (rule R112): no word is rejected, and the verdicts change nothing but the validator's registers (rule
R118). -/
def execCvfeed (w : Word) (s : State) : Host.Outcome State Fault Refusal :=
  .next { s with cv := cvFeed s.params w s.cv }

end Sys2Proof.Machine
end

