-- ==== Sys2Proof/Machine/Command.lean ====
section
/-! DEFINITION. The meaning of a write to CMD: the command word is executed at once and not kept (10_state.md rule
R25, 40_host_access.md rule R85). -/

namespace Sys2Proof.Machine

/-- A write of d to CMD, dispatched by the case distinction of 30_encoding.md rule R70. -/
def execWrCmd (d : Word) (s : State) : Host.Outcome State Fault Refusal :=
  caseCmd execNop execEnc execDec execBegin execClrbuf execCvrst execIllegal67 execIllegal8F d s

end Sys2Proof.Machine
end

