-- ==== Sys2Proof/Machine/HostAccess.lean ====
section
/-! DEFINITION. The meanings of the host register accesses (40_host_access.md): reads, writes of data and control
registers, the write of STATUS, and the ignored writes. -/

namespace Sys2Proof.Machine

/-- RD (rule R79): the word at OFF is returned and nothing is written; outside the window the access is not this
block's (rule R84). -/
def execRd (off : Offset) (s : State) : Host.Outcome State Fault Refusal :=
  if inWindow s.params off then .next (returnWord (readReg s off) s) else .refused .outsideWindow

/-- WR of CTRL (rule R80): RCHK_EN takes d[0]. -/
def execWrCtrl (d : Word) (s : State) : Host.Outcome State Fault Refusal :=
  .next { s with codec := { s.codec with rchkEn := d.getLsbD 0 } }

/-- WR of VAL_LO (rule R80). -/
def execWrValLo (d : Word) (s : State) : Host.Outcome State Fault Refusal :=
  .next { s with codec := { s.codec with val := s.codec.val.extractLsb' 32 32 ++ d } }

/-- WR of VAL_HI (rule R80). -/
def execWrValHi (d : Word) (s : State) : Host.Outcome State Fault Refusal :=
  .next { s with codec := { s.codec with val := d ++ s.codec.val.extractLsb' 0 32 } }

/-- WR of BUF[k] (rule R80); k at or above N_BUF_WORDS is outside the window (rule R84). -/
def execWrBuf (k : BitVec 16) (d : Word) (s : State) : Host.Outcome State Fault Refusal :=
  if k.toNat < s.params.nBufWords then
    .next { s with codec := { s.codec with buf := writeBuf s.codec.buf k.toNat d } }
  else .refused .outsideWindow

/-- WRSTATUS (rule R82): a write with d[0] = 1 clears the error record. -/
def execWrStatus (d : Word) (s : State) : Host.Outcome State Fault Refusal :=
  .next (if d.getLsbD 0 then { s with codec := clearErrors s.codec } else s)

/-! The ignored writes (rule R83): no state changes. -/

/-- The effect all ignored writes share: none (rule R83). -/
def ignoredWrite (s : State) : Host.Outcome State Fault Refusal := .next s

/-- A write to ERRCNT, 0x003. -/
def execWrErrcnt (_d : Word) (s : State) : Host.Outcome State Fault Refusal := ignoredWrite s

/-- A write to RES_LO or RES_HI, 0x006 and 0x007. -/
def execWrRes (_o : BitVec 1) (_d : Word) (s : State) : Host.Outcome State Fault Refusal := ignoredWrite s

/-- A write to VIOL_COUNT, BUFSIZE or a reserved offset, 0x008 to 0x00F. -/
def execWrViolBufsize (_o : BitVec 3) (_d : Word) (s : State) : Host.Outcome State Fault Refusal := ignoredWrite s

/-- A write to CV_STATUS, 0x011. -/
def execWrCvStatus (_d : Word) (s : State) : Host.Outcome State Fault Refusal := ignoredWrite s

/-- A write to CV_SIZE or CV_REMAIN, 0x012 and 0x013. -/
def execWrCvSizeRemain (_o : BitVec 1) (_d : Word) (s : State) : Host.Outcome State Fault Refusal := ignoredWrite s

/-- A write to CV_ACC, CV_BLKCNT, CV_HDRERR or CV_BODYERR, 0x014 to 0x017. -/
def execWrCvAccCounters (_o : BitVec 2) (_d : Word) (s : State) : Host.Outcome State Fault Refusal := ignoredWrite s

/-- A write to a reserved offset, 0x018 to 0x01F. -/
def execWrReserved018 (_o : BitVec 3) (_d : Word) (s : State) : Host.Outcome State Fault Refusal := ignoredWrite s

/-- A write to a reserved offset, 0x020 to 0x03F. -/
def execWrReserved020 (_o : BitVec 5) (_d : Word) (s : State) : Host.Outcome State Fault Refusal := ignoredWrite s

/-- A write to a reserved offset, 0x040 to 0x07F. -/
def execWrReserved040 (_o : BitVec 6) (_d : Word) (s : State) : Host.Outcome State Fault Refusal := ignoredWrite s

/-- A write to a reserved offset, 0x080 to 0x0FF. -/
def execWrReserved080 (_o : BitVec 7) (_d : Word) (s : State) : Host.Outcome State Fault Refusal := ignoredWrite s

end Sys2Proof.Machine
end

