-- ==== Sys2Proof/Machine/Dispatch.lean ====
section
/-! DEFINITION. The dispatch: one arm per instruction, each one direct call of its meaning. -/

namespace Sys2Proof.Machine

def exec (i : Instr) (s : State) : Host.Outcome State Fault Refusal :=
  match i with
  | .rd off => Sys2Proof.Machine.execRd off s
  | .wrCtrl d => Sys2Proof.Machine.execWrCtrl d s
  | .wrStatus d => Sys2Proof.Machine.execWrStatus d s
  | .wrCmd d => Sys2Proof.Machine.execWrCmd d s
  | .wrValLo d => Sys2Proof.Machine.execWrValLo d s
  | .wrValHi d => Sys2Proof.Machine.execWrValHi d s
  | .cvfeed w => Sys2Proof.Machine.execCvfeed w s
  | .wrBuf k d => Sys2Proof.Machine.execWrBuf k d s
  | .wrErrcnt d => Sys2Proof.Machine.execWrErrcnt d s
  | .wrRes o d => Sys2Proof.Machine.execWrRes o d s
  | .wrViolBufsize o d => Sys2Proof.Machine.execWrViolBufsize o d s
  | .wrCvStatus d => Sys2Proof.Machine.execWrCvStatus d s
  | .wrCvSizeRemain o d => Sys2Proof.Machine.execWrCvSizeRemain o d s
  | .wrCvAccCounters o d => Sys2Proof.Machine.execWrCvAccCounters o d s
  | .wrReserved018 o d => Sys2Proof.Machine.execWrReserved018 o d s
  | .wrReserved020 o d => Sys2Proof.Machine.execWrReserved020 o d s
  | .wrReserved040 o d => Sys2Proof.Machine.execWrReserved040 o d s
  | .wrReserved080 o d => Sys2Proof.Machine.execWrReserved080 o d s
  | .nop ign => Sys2Proof.Machine.execNop ign s
  | .enc width wordOff bitOff => Sys2Proof.Machine.execEnc width wordOff bitOff s
  | .dec width wordOff bitOff => Sys2Proof.Machine.execDec width wordOff bitOff s
  | .beginWrite ign => Sys2Proof.Machine.execBegin ign s
  | .clrbuf ign => Sys2Proof.Machine.execClrbuf ign s
  | .cvrst ign => Sys2Proof.Machine.execCvrst ign s
  | .illegal67 o ign => Sys2Proof.Machine.execIllegal67 o ign s
  | .illegal8F o ign => Sys2Proof.Machine.execIllegal8F o ign s

end Sys2Proof.Machine
end

