-- ==== Sys2Proof/Machine/Step.lean ====
section
/-! DEFINITION. The step: the oldest pending event is performed completely (00_scope.md rules R14 and R15,
40_host_access.md rule R86, 20_memory.md rules R51 and R56). -/

namespace Sys2Proof.Machine

/-- A rejection of the decoder is the model's refusal (40_host_access.md rule R84). -/
def refusalOf : Reject → Refusal
  | .outsideWindow => .outsideWindow

/-- One host transaction, once it is taken from the queue. -/
def access (t : Txn) (s : State) : Host.Outcome State Fault Refusal :=
  match decode s.params (.transaction t) with
  | .ok i => exec i s
  | .error e => .refused (refusalOf e)

/-- One event. -/
def perform (e : Event) (s : State) : Host.Outcome State Fault Refusal :=
  match e with
  | .access t => access t s
  | .reset => .next (blockReset s)

/-- The step. With nothing pending the block takes no step of its own (rule R14) and its state is final
(60_exceptions.md rule R142; assumption log 2). -/
def step (s : State) : Host.Outcome State Fault Refusal :=
  match s.pending with
  | [] => .next s
  | e :: rest => perform e { s with pending := rest }

/-- The code of a table word becomes the next event; a word that stands for no code changes nothing. -/
def State.withFetchWord (s : State) (nbits w : Nat) : State :=
  match codeOfTable nbits w with
  | some c => { s with pending := .access c.txn :: s.pending }
  | none => s

end Sys2Proof.Machine
end

