-- ==== Sys2Proof/WellFormed.lean ====
section
/-! DEFINITION. Well-formed instructions: those the block's window admits (40_host_access.md rules R79, R80 and
R84), and, apart from them, the operands the assembler accepts (30_encoding.md rule R75). -/

namespace Sys2Proof

/-- An instruction the block has a meaning for: a read inside the window, a write to a buffer word that exists.
Every other operand value is admitted; a bad descriptor is rejected by the block at run time (rule R65). -/
def Instr.wf (p : Params) : Instr → Bool
  | .rd off => inWindow p off
  | .wrBuf k _ => decide (k.toNat < p.nBufWords)
  | .wrCtrl _ => true
  | .wrStatus _ => true
  | .wrCmd _ => true
  | .wrValLo _ => true
  | .wrValHi _ => true
  | .cvfeed _ => true
  | .wrErrcnt _ => true
  | .wrRes _ _ => true
  | .wrViolBufsize _ _ => true
  | .wrCvStatus _ => true
  | .wrCvSizeRemain _ _ => true
  | .wrCvAccCounters _ _ => true
  | .wrReserved018 _ _ => true
  | .wrReserved020 _ _ => true
  | .wrReserved040 _ _ => true
  | .wrReserved080 _ _ => true
  | .nop _ => true
  | .enc _ _ _ => true
  | .dec _ _ _ => true
  | .beginWrite _ => true
  | .clrbuf _ => true
  | .cvrst _ => true
  | .illegal67 _ _ => true
  | .illegal8F _ _ => true

end Sys2Proof
end

