-- ==== Sys2Proof/Machine/Assembler.lean ====
section
/-! DEFINITION. The assembler of 30_encoding.md as data: register names (10_state.md rule R22), base forms (rule
R75), pseudo-instructions (rule R76) and disassembly (rule R78). The text of the forms is not parsed (assumption
log 15). -/

namespace Sys2Proof.Machine

/-- The registers by name (10_state.md rule R22). -/
inductive RegName where
  | ctrl | status | cmd | errcnt | valLo | valHi | resLo | resHi | violCount | bufsize
  | cvData | cvStatus | cvSize | cvRemain | cvAcc | cvBlkcnt | cvHdrerr | cvBodyerr
  | buf (k : BitVec 16)
  deriving DecidableEq, Repr

/-- The offset of a register (10_state.md rule R22). -/
def regOffset : RegName → Offset
  | .ctrl => 0x000#17
  | .status => 0x001#17
  | .cmd => 0x002#17
  | .errcnt => 0x003#17
  | .valLo => 0x004#17
  | .valHi => 0x005#17
  | .resLo => 0x006#17
  | .resHi => 0x007#17
  | .violCount => 0x008#17
  | .bufsize => 0x009#17
  | .cvData => 0x010#17
  | .cvStatus => 0x011#17
  | .cvSize => 0x012#17
  | .cvRemain => 0x013#17
  | .cvAcc => 0x014#17
  | .cvBlkcnt => 0x015#17
  | .cvHdrerr => 0x016#17
  | .cvBodyerr => 0x017#17
  | .buf k => 0x100#17 + k.setWidth 17

/-- The base forms of rule R75. -/
inductive Asm where
  | rd (r : RegName)
  | wr (r : RegName) (d : Word)
  | nop
  | enc (w wordOff bitOff : Nat)
  | dec (w wordOff bitOff : Nat)
  | beginWrite
  | clrbuf
  | cvrst
  | cvfeed (w : Word)
  deriving DecidableEq, Repr

/-- The descriptor operands the assembler accepts: W 1 to 64, wordOff 0 to 65535, bitOff 0 to 31 (rule R75). -/
def descriptorOk (w wordOff bitOff : Nat) : Bool :=
  decide (1 ≤ w) && decide (w ≤ 64) && decide (wordOff ≤ 65535) && decide (bitOff ≤ 31)

/-- `(op << 28) | (W << 21) | (wordOff << 5) | bitOff` (rule R75). -/
def asmFieldWord (op w wordOff bitOff : Nat) : Word :=
  BitVec.ofNat 32 ((op <<< 28) ||| (w <<< 21) ||| (wordOff <<< 5) ||| bitOff)

/-- The transaction of a base form; none where the assembler refuses the operands (rule R75). -/
def assemble : Asm → Option Txn
  | .rd r => some (.read (regOffset r))
  | .wr r d => some (.write (regOffset r) d)
  | .nop => some (.write (regOffset .cmd) 0x00000000#32)
  | .enc w wo bo =>
    if descriptorOk w wo bo then some (.write (regOffset .cmd) (asmFieldWord 0x1 w wo bo)) else none
  | .dec w wo bo =>
    if descriptorOk w wo bo then some (.write (regOffset .cmd) (asmFieldWord 0x2 w wo bo)) else none
  | .beginWrite => some (.write (regOffset .cmd) 0x30000000#32)
  | .clrbuf => some (.write (regOffset .cmd) 0x40000000#32)
  | .cvrst => some (.write (regOffset .cmd) 0x50000000#32)
  | .cvfeed w => some (.write (regOffset .cvData) w)

/-- The pseudo-instructions of rule R76. -/
inductive Pseudo where
  | setval (v : DWord)
  | encv (w wordOff bitOff : Nat) (v : DWord)
  | encg (w g : Nat)
  | decg (w g : Nat)
  | rdres
  | clrerr
  | rchk (on : Bool)
  | ldbuf (k : BitVec 16) (ws : List Word)
  | cvfeedn (ws : List Word)
  deriving DecidableEq, Repr

/-- `wr BUF[k], w0`; `wr BUF[k+1], w1`; ... -/
def expandLdbuf (k : BitVec 16) : List Word → List Asm
  | [] => []
  | w :: ws => .wr (.buf k) w :: expandLdbuf (k + 1#16) ws

/-- The expansion of a pseudo-instruction, in order (rule R76). -/
def expand : Pseudo → List Asm
  | .setval v => [.wr .valLo (v.extractLsb' 0 32), .wr .valHi (v.extractLsb' 32 32)]
  | .encv w wo bo v => [.wr .valLo (v.extractLsb' 0 32), .wr .valHi (v.extractLsb' 32 32), .enc w wo bo]
  | .encg w g => [.enc w (g / 32) (g % 32)]
  | .decg w g => [.dec w (g / 32) (g % 32)]
  | .rdres => [.rd .resLo, .rd .resHi]
  | .clrerr => [.wr .status 0x00000001#32]
  | .rchk true => [.wr .ctrl 0x00000001#32]
  | .rchk false => [.wr .ctrl 0x00000000#32]
  | .ldbuf k ws => expandLdbuf k ws
  | .cvfeedn ws => ws.map .cvfeed

/-- The disassembly of a command word (rule R78): a descriptor whose W is 0 or above 64, and a reserved OP, print
as `wr CMD, d`. -/
def disassemble (d : Word) : Asm :=
  caseCmd (fun _ => .nop)
    (fun w wo bo => if legalWidth w then .enc w.toNat wo.toNat bo.toNat else .wr .cmd d)
    (fun w wo bo => if legalWidth w then .dec w.toNat wo.toNat bo.toNat else .wr .cmd d)
    (fun _ => .beginWrite) (fun _ => .clrbuf) (fun _ => .cvrst)
    (fun _ _ => .wr .cmd d) (fun _ _ => .wr .cmd d) d

end Sys2Proof.Machine
end

