-- ==== Sys2Proof/Safety.lean ====
section
/-! DEFINITION. The terms the statements use: the invariant of the state, the bit string of the buffer, the fields
of a descriptor, a sequence of instructions, and the blocks of a configuration blob. -/

namespace Sys2Proof.Machine

/-! ## The invariant -/

/-- ERR, ERRCODE and ERRCNT agree: ERRCODE is 0 while ERR = 0 (10_state.md rule R24), and every rejection sets ERR
and counts (60_exceptions.md rule R127). -/
abbrev Codec.Inv (c : Codec) : Prop :=
  (c.err = false ↔ c.errcode = .none) ∧ (c.err = false ↔ c.errcnt = 0#32)

/-- The five flags of CV_STATUS are clear (42_crc_validator.md rule R113). -/
abbrev Validator.NoFlags (v : Validator) : Prop :=
  v.hdrOk = false ∧ v.hdrBad = false ∧ v.bodyOk = false ∧ v.bodyBad = false ∧ v.term = false

/-- A header was checked, with one verdict, and no body yet (42_crc_validator.md rule R115). -/
abbrev Validator.HdrChecked (v : Validator) : Prop :=
  v.hdrOk = !v.hdrBad ∧ v.bodyOk = false ∧ v.bodyBad = false ∧ v.term = false

/-- What the framing keeps (10_state.md rules R33 to R37, 42_crc_validator.md rules R113 to R117): HDR_OK and
HDR_BAD are never both 1, nor BODY_OK and BODY_BAD, and each position goes with its counts and flags. -/
abbrev Validator.Inv (p : Params) (v : Validator) : Prop :=
  (v.hdrOk && v.hdrBad) = false ∧ (v.bodyOk && v.bodyBad) = false ∧
  (v.state = .idle → v.remain = 0#24 ∧ v.acc = p.crcInit ∧
    (v.term = true → v.size = 0#24 ∧ v.hdrOk = false ∧ v.hdrBad = false ∧ v.bodyOk = false ∧ v.bodyBad = false)) ∧
  (v.state = .hdr1 → v.NoFlags ∧ v.size = 0#24 ∧ v.remain = 0#24) ∧
  (v.state = .hcrc → v.NoFlags ∧ v.remain = v.size) ∧
  (v.state = .body → v.HdrChecked ∧ 1 ≤ v.remain.toNat ∧ v.remain.toNat ≤ v.size.toNat) ∧
  (v.state = .bcrc → v.HdrChecked ∧ v.remain = 0#24 ∧ v.size ≠ 0#24)

/-- The invariant every step keeps: legal parameters (00_scope.md rule R7), a buffer of N_BUF_WORDS words
(10_state.md rule R44), a consistent error record, a consistent validator. -/
abbrev State.Inv (s : State) : Prop :=
  s.params.wf = true ∧ Memory.wf s.params s.codec.buf = true ∧ s.codec.Inv ∧ s.cv.Inv s.params

/-! ## Fields and the bit string -/

/-- `B[g]`: bit g of the bit string of the buffer (00_scope.md rule R12). -/
def bitString (buf : List Word) (g : Nat) : Bool :=
  (readBuf buf (g / 32)).getLsbD (g % 32)

/-- A descriptor that passes the check of 41_codec.md rule R89 in a buffer of n words. -/
abbrev LegalField (n : Nat) (width : BitVec 7) (wordOff : BitVec 16) (bitOff : BitVec 5) : Prop :=
  1 ≤ width.toNat ∧ width.toNat ≤ 64 ∧ globalOffset wordOff bitOff + width.toNat ≤ 32 * n

/-- Two fields share no bit. -/
abbrev DisjointFields (w1 : BitVec 7) (wo1 : BitVec 16) (bo1 : BitVec 5) (w2 : BitVec 7) (wo2 : BitVec 16)
    (bo2 : BitVec 5) : Prop :=
  globalOffset wo1 bo1 + w1.toNat ≤ globalOffset wo2 bo2 ∨ globalOffset wo2 bo2 + w2.toNat ≤ globalOffset wo1 bo1

/-- The state with another source value in VAL. -/
def State.withVal (s : State) (v : DWord) : State := { s with codec := { s.codec with val := v } }

/-! ## Sequences -/

/-- Instructions one after another, each complete before the next (20_memory.md rule R56), stopping at the first
that gives no next state. -/
def execAll : List Instr → State → Host.Outcome State Fault Refusal
  | [], s => .next s
  | i :: is, s =>
    match exec i s with
    | .next t => execAll is t
    | .fault r => .fault r
    | .refused r => .refused r

/-! ## Configuration blobs -/

/-- A block of the blob (42_crc_validator.md rule R105). -/
structure CfgBlock where
  h0 : Word
  h1 : Word
  hcrc : Word
  body : List Word
  bcrc : Word
  deriving DecidableEq, Repr

/-- The block's size word gives the number of its body words, which is not 0 (42_crc_validator.md rule R105). -/
abbrev CfgBlock.Framed (b : CfgBlock) : Prop :=
  (b.h1.extractLsb' 0 24).toNat = b.body.length ∧ b.body ≠ []

/-- The words of a block, in order. -/
def CfgBlock.words (b : CfgBlock) : List Word := b.h0 :: b.h1 :: b.hcrc :: (b.body ++ [b.bcrc])

/-- The header CRC of the block does not match (42_crc_validator.md rule R109). -/
def CfgBlock.hdrMismatch (p : Params) (b : CfgBlock) : Bool := decide (crcWords p [b.h0, b.h1] ≠ b.hcrc)

/-- The body CRC of the block does not match (42_crc_validator.md rule R110). -/
def CfgBlock.bodyMismatch (p : Params) (b : CfgBlock) : Bool := decide (crcWords p b.body ≠ b.bcrc)

/-- The words of a blob from word 1 on: the blocks, then the three words of the terminator (42_crc_validator.md
rules R105 and R119). -/
def blobWords (blocks : List CfgBlock) (t0 t1 globalCrc : Word) : List Word :=
  blocks.flatMap CfgBlock.words ++ [t0, t1, globalCrc]

/-- The value of a 32-bit saturating counter after n events from 0 (00_scope.md rule R10). -/
def saturated (n : Nat) : Nat := min n 0xFFFFFFFF

end Sys2Proof.Machine
end

