-- ==== Sys2Proof/Certificates/Slice0/Obligations.lean ====
section
/-! DEFINITION. The statements for the provers, file by file of the spec. Each says which rule it formalises;
statements about every state are about states no run reaches too, and take the part of the invariant they need as a
premise. -/

open Sys2Proof Sys2Proof.Machine

/-! ## Encoding (30_encoding.md) -/

/-- The encoding examples of rule R77: each assembly form has its command word, the word decodes to the command, and
the last three are rejected at run time. -/
def Obligations.EncodingExamplesAssembleAndDecode : Prop :=
  (assemble .nop = some (.write 0x002#17 0x00000000#32) ∧ decodeCmd 0x00000000#32 = .nop 0#28) ∧
  (assemble (.enc 61 0 4) = some (.write 0x002#17 0x17A00004#32) ∧ decodeCmd 0x17A00004#32 = .enc 61#7 0#16 4#5) ∧
  (assemble (.dec 61 0 4) = some (.write 0x002#17 0x27A00004#32) ∧ decodeCmd 0x27A00004#32 = .dec 61#7 0#16 4#5) ∧
  (assemble (.enc 64 0 0) = some (.write 0x002#17 0x18000000#32) ∧ decodeCmd 0x18000000#32 = .enc 64#7 0#16 0#5) ∧
  (assemble (.enc 64 0 31) = some (.write 0x002#17 0x1800001F#32) ∧ decodeCmd 0x1800001F#32 = .enc 64#7 0#16 31#5) ∧
  (assemble (.enc 1 0 0) = some (.write 0x002#17 0x10200000#32) ∧ decodeCmd 0x10200000#32 = .enc 1#7 0#16 0#5) ∧
  (assemble (.dec 12 1 20) = some (.write 0x002#17 0x21800034#32) ∧ decodeCmd 0x21800034#32 = .dec 12#7 1#16 20#5) ∧
  (assemble (.enc 8 2 24) = some (.write 0x002#17 0x11000058#32) ∧ decodeCmd 0x11000058#32 = .enc 8#7 2#16 24#5) ∧
  (assemble (.enc 64 65535 31) = some (.write 0x002#17 0x181FFFFF#32) ∧
    decodeCmd 0x181FFFFF#32 = .enc 64#7 65535#16 31#5) ∧
  (assemble .beginWrite = some (.write 0x002#17 0x30000000#32) ∧ decodeCmd 0x30000000#32 = .beginWrite 0#28) ∧
  (assemble .clrbuf = some (.write 0x002#17 0x40000000#32) ∧ decodeCmd 0x40000000#32 = .clrbuf 0#28) ∧
  (assemble .cvrst = some (.write 0x002#17 0x50000000#32) ∧ decodeCmd 0x50000000#32 = .cvrst 0#28) ∧
  (assemble (.wr .cmd 0x10000000#32) = some (.write 0x002#17 0x10000000#32) ∧
    decodeCmd 0x10000000#32 = .enc 0#7 0#16 0#5) ∧
  (assemble (.wr .cmd 0x18200000#32) = some (.write 0x002#17 0x18200000#32) ∧
    decodeCmd 0x18200000#32 = .enc 65#7 0#16 0#5) ∧
  (assemble (.wr .cmd 0x60000000#32) = some (.write 0x002#17 0x60000000#32) ∧
    decodeCmd 0x60000000#32 = .illegal67 0#1 0#28) ∧
  (∀ s : State, exec (decodeCmd 0x10000000#32) s = .next (cmdError .badWidth s) ∧
    exec (decodeCmd 0x18200000#32) s = .next (cmdError .badWidth s) ∧
    exec (decodeCmd 0x60000000#32) s = .next (cmdError .illegalOp s))

/-- Decode and encode agree on every instruction: decoding the code of a well-formed instruction gives it back, with
every operand at every value (rules R63, R64, R69). -/
def Obligations.DecodeOfEncodeIsTheInstruction : Prop :=
  ∀ (p : Params) (i : Instr), p.wf = true → i.wf p = true → decode p (encode i) = .ok i

/-- Every code has one meaning: what the decoder answers is well-formed, and encoding it gives the code back (rules
R69 and R70). -/
def Obligations.EncodeOfDecodeIsTheCode : Prop :=
  ∀ (p : Params) (c : Code) (i : Instr), p.wf = true → decode p c = .ok i → i.wf p = true ∧ encode i = c

/-- Rule R69: the offset of a transaction selects the operation. A read at any offset of the window is RD; a write is
WR of CTRL, VAL_LO, VAL_HI or BUF[k], WRSTATUS, CVFEED, the command written to CMD, or, at a read-only or reserved
offset, an instruction that changes nothing; a transaction is rejected exactly where its offset is at or above
0x100 + N_BUF_WORDS (rule R84). -/
def Obligations.OffsetSelectsTheOperation : Prop :=
  ∀ (p : Params) (d : Word),
    (∀ off : Offset, off.toNat < 0x100 + p.nBufWords → decode p (.transaction (.read off)) = .ok (.rd off)) ∧
    decode p (.transaction (.write 0x000#17 d)) = .ok (.wrCtrl d) ∧
    decode p (.transaction (.write 0x004#17 d)) = .ok (.wrValLo d) ∧
    decode p (.transaction (.write 0x005#17 d)) = .ok (.wrValHi d) ∧
    (∀ (k : BitVec 16) (off : Offset), k.toNat < p.nBufWords → off.toNat = 0x100 + k.toNat →
      decode p (.transaction (.write off d)) = .ok (.wrBuf k d)) ∧
    decode p (.transaction (.write 0x001#17 d)) = .ok (.wrStatus d) ∧
    decode p (.transaction (.write 0x010#17 d)) = .ok (.cvfeed d) ∧
    decode p (.transaction (.write 0x002#17 d)) = .ok (.wrCmd d) ∧
    (∀ off : Offset, off.toNat = 0x003 ∨ (0x006 ≤ off.toNat ∧ off.toNat ≤ 0x00F) ∨
        (0x011 ≤ off.toNat ∧ off.toNat ≤ 0x0FF) →
      ∃ i, decode p (.transaction (.write off d)) = .ok i ∧ ∀ s, exec i s = .next s) ∧
    (∀ off : Offset, (decode p (.transaction (.read off)) = .error .outsideWindow ↔ 0x100 + p.nBufWords ≤ off.toNat) ∧
      (decode p (.transaction (.write off d)) = .error .outsideWindow ↔ 0x100 + p.nBufWords ≤ off.toNat))

/-- Rule R66: G is `32 * CMD[20:5] + CMD[4:0]`, which is `CMD[20:0]` as a number; its quotient and remainder by 32
are WORD_OFFSET and BIT_OFFSET. -/
def Obligations.GlobalOffsetIsLowBitsOfCommand : Prop :=
  ∀ d : Word,
    globalOffset (d.extractLsb' 5 16) (d.extractLsb' 0 5) =
      32 * (d.extractLsb' 5 16).toNat + (d.extractLsb' 0 5).toNat ∧
    globalOffset (d.extractLsb' 5 16) (d.extractLsb' 0 5) = (d.extractLsb' 0 21).toNat ∧
    globalOffset (d.extractLsb' 5 16) (d.extractLsb' 0 5) / 32 = (d.extractLsb' 5 16).toNat ∧
    globalOffset (d.extractLsb' 5 16) (d.extractLsb' 0 5) % 32 = (d.extractLsb' 0 5).toNat

/-- Rule R68: the OP values of format C. ENC and DEC take W and G from the word; 0x6 to 0xF are reserved. -/
def Obligations.OpSelectsTheCommand : Prop :=
  ∀ d : Word,
    (d.extractLsb' 28 4 = 0x0#4 → decodeCmd d = .nop (d.extractLsb' 0 28)) ∧
    (d.extractLsb' 28 4 = 0x1#4 → decodeCmd d = .enc (d.extractLsb' 21 7) (d.extractLsb' 5 16) (d.extractLsb' 0 5)) ∧
    (d.extractLsb' 28 4 = 0x2#4 → decodeCmd d = .dec (d.extractLsb' 21 7) (d.extractLsb' 5 16) (d.extractLsb' 0 5)) ∧
    (d.extractLsb' 28 4 = 0x3#4 → decodeCmd d = .beginWrite (d.extractLsb' 0 28)) ∧
    (d.extractLsb' 28 4 = 0x4#4 → decodeCmd d = .clrbuf (d.extractLsb' 0 28)) ∧
    (d.extractLsb' 28 4 = 0x5#4 → decodeCmd d = .cvrst (d.extractLsb' 0 28)) ∧
    (6 ≤ (d.extractLsb' 28 4).toNat → (d.extractLsb' 28 4).toNat ≤ 7 →
      decodeCmd d = .illegal67 (d.extractLsb' 28 1) (d.extractLsb' 0 28)) ∧
    (8 ≤ (d.extractLsb' 28 4).toNat → decodeCmd d = .illegal8F (d.extractLsb' 28 3) (d.extractLsb' 0 28))

/-- The word the assembler builds for `enc` and `dec` by shifts and ors decodes to that command with those operands,
and exactly the operands of rule R75 are accepted. -/
def Obligations.AssembledFieldCommandsDecode : Prop :=
  ∀ w wo bo : Nat,
    (1 ≤ w ∧ w ≤ 64 ∧ wo ≤ 65535 ∧ bo ≤ 31 →
      ∃ d e, assemble (.enc w wo bo) = some (.write 0x002#17 d) ∧
        decodeCmd d = .enc (BitVec.ofNat 7 w) (BitVec.ofNat 16 wo) (BitVec.ofNat 5 bo) ∧
        assemble (.dec w wo bo) = some (.write 0x002#17 e) ∧
        decodeCmd e = .dec (BitVec.ofNat 7 w) (BitVec.ofNat 16 wo) (BitVec.ofNat 5 bo)) ∧
    (¬(1 ≤ w ∧ w ≤ 64 ∧ wo ≤ 65535 ∧ bo ≤ 31) →
      assemble (.enc w wo bo) = none ∧ assemble (.dec w wo bo) = none)

/-- Rule R78: disassembling what the assembler writes to CMD for a command form gives the form back; every command
word has the form the rule gives for its OP, whatever bits [27:0] hold for OP 0x0, 0x3, 0x4 and 0x5, and `wr CMD, d`
for an illegal width or a reserved OP; and a canonical word is assembled again from its form. The forms are data, not
text (assumption log 15). -/
def Obligations.DisassemblyInvertsAssembly : Prop :=
  (∀ (a : Asm) (d : Word), (∀ r, a ≠ .rd r) → (∀ r x, a ≠ .wr r x) → (∀ x, a ≠ .cvfeed x) →
    assemble a = some (.write 0x002#17 d) → disassemble d = a) ∧
  ∀ d : Word,
    (d.extractLsb' 28 4 = 0x0#4 → disassemble d = .nop) ∧
    (d.extractLsb' 28 4 = 0x3#4 → disassemble d = .beginWrite) ∧
    (d.extractLsb' 28 4 = 0x4#4 → disassemble d = .clrbuf) ∧
    (d.extractLsb' 28 4 = 0x5#4 → disassemble d = .cvrst) ∧
    (d.extractLsb' 28 4 = 0x1#4 → disassemble d =
      if 1 ≤ (d.extractLsb' 21 7).toNat ∧ (d.extractLsb' 21 7).toNat ≤ 64 then
        .enc (d.extractLsb' 21 7).toNat (d.extractLsb' 5 16).toNat (d.extractLsb' 0 5).toNat
      else .wr .cmd d) ∧
    (d.extractLsb' 28 4 = 0x2#4 → disassemble d =
      if 1 ≤ (d.extractLsb' 21 7).toNat ∧ (d.extractLsb' 21 7).toNat ≤ 64 then
        .dec (d.extractLsb' 21 7).toNat (d.extractLsb' 5 16).toNat (d.extractLsb' 0 5).toNat
      else .wr .cmd d) ∧
    (6 ≤ (d.extractLsb' 28 4).toNat → disassemble d = .wr .cmd d) ∧
    ((d.extractLsb' 28 4 = 0x0#4 ∨ d.extractLsb' 28 4 = 0x3#4 ∨ d.extractLsb' 28 4 = 0x4#4 ∨
        d.extractLsb' 28 4 = 0x5#4 → d.extractLsb' 0 28 = 0#28) →
      assemble (disassemble d) = some (.write 0x002#17 d))

/-! ## The step (40_host_access.md, 00_scope.md, 60_exceptions.md) -/

/-- A step runs the decoded instruction: when the oldest pending event is the access by which a code reaches the
block and the code decodes to i, the step is exec of i with that event taken from the queue. A command word reaches
the block as the data of a write to CMD. -/
def Obligations.StepRunsTheDecodedInstruction : Prop :=
  ∀ (s : State) (c : Code) (rest : List Event) (i : Instr),
    s.pending = .access c.txn :: rest → decode s.params c = .ok i →
      step s = exec i { s with pending := rest }

/-- THE MODEL'S CHOICE (assumption log 2): with nothing pending the step leaves the state as it is. -/
def Obligations.StepWithNothingPendingKeepsState : Prop :=
  ∀ s : State, s.pending = [] → step s = .next s

/-- Rule R141: a transaction inside the window always gives a next state, and the only refusal of the step is an
access outside the window. A write to CMD whose command is rejected, a reserved OP or a bad descriptor, is an ordinary
step, and STATUS.ERR is 1 after it. -/
def Obligations.OnlyAccessesOutsideWindowAreRefused : Prop :=
  ∀ (s : State) (t : Txn) (rest : List Event) (off : Offset),
    s.pending = .access t :: rest → (t = .read off ∨ ∃ d, t = .write off d) →
      (off.toNat < 0x100 + s.params.nBufWords → ∃ u, step s = .next u) ∧
      (0x100 + s.params.nBufWords ≤ off.toNat → step s = .refused .outsideWindow) ∧
      (∀ d, t = .write 0x002#17 d →
        6 ≤ (d.extractLsb' 28 4).toNat ∨ ((d.extractLsb' 28 4 = 0x1#4 ∨ d.extractLsb' 28 4 = 0x2#4) ∧
          ¬LegalField s.params.nBufWords (d.extractLsb' 21 7) (d.extractLsb' 5 16) (d.extractLsb' 0 5)) →
        ∃ u, step s = .next u ∧ (readReg u 0x001#17).getLsbD 0 = true)

/-- Rule R84: an access at or above 0x100 + N_BUF_WORDS is refused, by the meanings of `rd` and `wr BUF` too. -/
def Obligations.AccessOutsideWindowIsRefused : Prop :=
  ∀ s : State,
    (∀ off : Offset, 0x100 + s.params.nBufWords ≤ off.toNat → exec (.rd off) s = .refused .outsideWindow) ∧
    (∀ (k : BitVec 16) (d : Word), s.params.nBufWords ≤ k.toNat → exec (.wrBuf k d) s = .refused .outsideWindow) ∧
    (∀ (off : Offset) (rest : List Event), 0x100 + s.params.nBufWords ≤ off.toNat →
      s.pending = .access (.read off) :: rest → step s = .refused .outsideWindow) ∧
    (∀ (off : Offset) (d : Word) (rest : List Event), 0x100 + s.params.nBufWords ≤ off.toNat →
      s.pending = .access (.write off d) :: rest → step s = .refused .outsideWindow)

/-- The window on the host's bus: the word addresses from CODEC_BASE on, 0x100 + N_BUF_WORDS of them, have their
distance from CODEC_BASE as offset, and no other address is the block's (10_state.md rule R22, 20_memory.md rule
R54). -/
def Obligations.WindowStartsAtCodecBase : Prop :=
  ∀ (p : Params) (addr : Nat), p.wf = true →
    (Config.codecBase ≤ addr ∧ addr < Config.codecBase + 0x100 + p.nBufWords →
      ∃ off, busOffset p addr = some off ∧ off.toNat = addr - Config.codecBase ∧ inWindow p off = true) ∧
    (¬(Config.codecBase ≤ addr ∧ addr < Config.codecBase + 0x100 + p.nBufWords) → busOffset p addr = none)

/-! ## Host access (40_host_access.md) -/

/-- Rule R79: a read inside the window returns readReg(OFF) and writes nothing of the block; CMD, CV_DATA and the
reserved offsets read 0; a second read with no write between returns the same value. -/
def Obligations.ReadReturnsTheRegister : Prop :=
  ∀ (s : State) (off : Offset), off.toNat < 0x100 + s.params.nBufWords →
    exec (.rd off) s = .next { s with returned := s.returned ++ [readReg s off] } ∧
    execAll [.rd off, .rd off] s = .next { s with returned := s.returned ++ [readReg s off, readReg s off] } ∧
    (off = 0x002#17 ∨ off = 0x010#17 → readReg s off = 0#32) ∧
    (0x00A ≤ off.toNat ∧ off.toNat ≤ 0x00F ∨ 0x018 ≤ off.toNat ∧ off.toNat ≤ 0x0FF → readReg s off = 0#32)

/-- Rule R81: the read function, offset by offset. -/
def Obligations.ReadFunctionByOffset : Prop :=
  ∀ s : State,
    readReg s 0x000#17 = (BitVec.ofBool s.codec.rchkEn).setWidth 32 ∧
    readReg s 0x001#17 = (errCodeBits s.codec.errcode ++ BitVec.ofBool s.codec.err).setWidth 32 ∧
    readReg s 0x002#17 = 0#32 ∧
    readReg s 0x003#17 = s.codec.errcnt ∧
    readReg s 0x004#17 = s.codec.val.extractLsb' 0 32 ∧
    readReg s 0x005#17 = s.codec.val.extractLsb' 32 32 ∧
    readReg s 0x006#17 = s.codec.res.extractLsb' 0 32 ∧
    readReg s 0x007#17 = s.codec.res.extractLsb' 32 32 ∧
    readReg s 0x008#17 = s.codec.viol ∧
    readReg s 0x009#17 = BitVec.ofNat 32 s.params.nBufWords ∧
    readReg s 0x010#17 = 0#32 ∧
    readReg s 0x011#17 =
      (s.cv.blockid ++ BitVec.ofBool s.cv.term ++ BitVec.ofBool s.cv.bodyBad ++ BitVec.ofBool s.cv.bodyOk ++
        BitVec.ofBool s.cv.hdrBad ++ BitVec.ofBool s.cv.hdrOk ++ cvStateBits s.cv.state).setWidth 32 ∧
    readReg s 0x012#17 = s.cv.size.setWidth 32 ∧
    readReg s 0x013#17 = s.cv.remain.setWidth 32 ∧
    readReg s 0x014#17 = s.cv.acc ∧
    readReg s 0x015#17 = s.cv.blkcnt ∧
    readReg s 0x016#17 = s.cv.hdrerr ∧
    readReg s 0x017#17 = s.cv.bodyerr ∧
    (∀ (k : Nat) (off : Offset), k < s.params.nBufWords → off.toNat = 0x100 + k →
      readReg s off = readBuf s.codec.buf k) ∧
    (∀ off : Offset, 0x00A ≤ off.toNat ∧ off.toNat ≤ 0x00F ∨ 0x018 ≤ off.toNat ∧ off.toNat ≤ 0x0FF ∨
      0x100 + s.params.nBufWords ≤ off.toNat → readReg s off = 0#32)

/-- The bits of STATUS and CV_STATUS as the host reads them (10_state.md, the field tables of STATUS and CV_STATUS),
with the number of every error code (60_exceptions.md rule R126) and of every framing state (10_state.md rule R34). -/
def Obligations.StatusRegistersShowTheirFields : Prop :=
  ∀ s : State,
    (readReg s 0x001#17).getLsbD 0 = s.codec.err ∧
    (readReg s 0x001#17).extractLsb' 1 3 = errCodeBits s.codec.errcode ∧
    (s.codec.errcode = .none → (readReg s 0x001#17).extractLsb' 1 3 = 0#3) ∧
    (s.codec.errcode = .illegalOp → (readReg s 0x001#17).extractLsb' 1 3 = 1#3) ∧
    (s.codec.errcode = .badWidth → (readReg s 0x001#17).extractLsb' 1 3 = 2#3) ∧
    (s.codec.errcode = .outOfBuffer → (readReg s 0x001#17).extractLsb' 1 3 = 3#3) ∧
    (readReg s 0x001#17).extractLsb' 4 28 = 0#28 ∧
    (readReg s 0x011#17).extractLsb' 0 3 = cvStateBits s.cv.state ∧
    (s.cv.state = .idle → (readReg s 0x011#17).extractLsb' 0 3 = 0#3) ∧
    (s.cv.state = .hdr1 → (readReg s 0x011#17).extractLsb' 0 3 = 1#3) ∧
    (s.cv.state = .hcrc → (readReg s 0x011#17).extractLsb' 0 3 = 2#3) ∧
    (s.cv.state = .body → (readReg s 0x011#17).extractLsb' 0 3 = 3#3) ∧
    (s.cv.state = .bcrc → (readReg s 0x011#17).extractLsb' 0 3 = 4#3) ∧
    (readReg s 0x011#17).getLsbD 3 = s.cv.hdrOk ∧
    (readReg s 0x011#17).getLsbD 4 = s.cv.hdrBad ∧
    (readReg s 0x011#17).getLsbD 5 = s.cv.bodyOk ∧
    (readReg s 0x011#17).getLsbD 6 = s.cv.bodyBad ∧
    (readReg s 0x011#17).getLsbD 7 = s.cv.term ∧
    (readReg s 0x011#17).extractLsb' 8 8 = s.cv.blockid ∧
    (readReg s 0x011#17).extractLsb' 16 16 = 0#16

/-- Rule R80: the writes of CTRL, VAL_LO, VAL_HI and BUF[k] complete, and change only RCHK_EN, that half of VAL, or
that word; every other word and everything else of the state is as before. -/
def Obligations.WriteOfDataOrControlRegister : Prop :=
  ∀ (s : State) (d : Word),
    exec (.wrCtrl d) s = .next { s with codec := { s.codec with rchkEn := d.getLsbD 0 } } ∧
    (∃ t, exec (.wrValLo d) s = .next t ∧ t = { s with codec := { s.codec with val := t.codec.val } } ∧
      t.codec.val.extractLsb' 0 32 = d ∧ t.codec.val.extractLsb' 32 32 = s.codec.val.extractLsb' 32 32) ∧
    (∃ t, exec (.wrValHi d) s = .next t ∧ t = { s with codec := { s.codec with val := t.codec.val } } ∧
      t.codec.val.extractLsb' 32 32 = d ∧ t.codec.val.extractLsb' 0 32 = s.codec.val.extractLsb' 0 32) ∧
    (∀ k : BitVec 16, Memory.wf s.params s.codec.buf = true → k.toNat < s.params.nBufWords →
      ∃ t, exec (.wrBuf k d) s = .next t ∧ t = { s with codec := { s.codec with buf := t.codec.buf } } ∧
        t.codec.buf.length = s.codec.buf.length ∧ readBuf t.codec.buf k.toNat = d ∧
        ∀ j, j ≠ k.toNat → readBuf t.codec.buf j = readBuf s.codec.buf j)

/-- Rule R82: a write of STATUS with bit 0 = 1 clears ERR, ERRCODE and ERRCNT and nothing else; with bit 0 = 0 nothing
happens. -/
def Obligations.WriteOfStatusClearsErrorRecord : Prop :=
  ∀ (s : State) (d : Word),
    exec (.wrStatus d) s =
      .next (if d.getLsbD 0 then
        { s with codec := { s.codec with err := false, errcode := .none, errcnt := 0#32 } } else s)

/-- Rule R83: an ignored write changes no state, whatever its offset in the row and its data. -/
def Obligations.IgnoredWritesChangeNothing : Prop :=
  ∀ (s : State) (d : Word),
    exec (.wrErrcnt d) s = .next s ∧
    (∀ o, exec (.wrRes o d) s = .next s) ∧
    (∀ o, exec (.wrViolBufsize o d) s = .next s) ∧
    exec (.wrCvStatus d) s = .next s ∧
    (∀ o, exec (.wrCvSizeRemain o d) s = .next s) ∧
    (∀ o, exec (.wrCvAccCounters o d) s = .next s) ∧
    (∀ o, exec (.wrReserved018 o d) s = .next s) ∧
    (∀ o, exec (.wrReserved020 o d) s = .next s) ∧
    (∀ o, exec (.wrReserved040 o d) s = .next s) ∧
    (∀ o, exec (.wrReserved080 o d) s = .next s)

/-- Rule R25: a write of d to CMD executes the command d at once, which always completes; nothing of d is kept, and
CMD reads 0. -/
def Obligations.CommandWriteExecutesTheCommand : Prop :=
  ∀ (s : State) (d : Word),
    ∃ t, exec (.wrCmd d) s = .next t ∧ exec (decodeCmd d) s = .next t ∧ readReg t 0x002#17 = 0#32

/-- Writes to CTRL, VAL_LO, VAL_HI, BUF[k], and to STATUS with bit 0 = 1, are idempotent (20_memory.md section 3). -/
def Obligations.DataAndControlWritesAreIdempotent : Prop :=
  ∀ (s t : State) (i : Instr) (d : Word),
    (i = .wrCtrl d ∨ i = .wrValLo d ∨ i = .wrValHi d ∨ (∃ k, i = .wrBuf k d) ∨
      (i = .wrStatus d ∧ d.getLsbD 0 = true)) →
    exec i s = .next t → exec i t = .next t

/-! ## The codec (41_codec.md) -/

/-- Rule R87: NOP changes nothing, whatever bits [27:0] hold. -/
def Obligations.NopChangesNothing : Prop :=
  ∀ (s : State) (ign : BitVec 28), exec (.nop ign) s = .next s

/-- Rule R71 (30_encoding.md): a command with OP 0x6 to 0xF is rejected with ILLEGAL_OP and has no other effect, also
as the word it is written as. -/
def Obligations.ReservedOpIsRejected : Prop :=
  ∀ (s : State) (ign : BitVec 28),
    (∀ o, exec (.illegal67 o ign) s = .next { s with codec := { s.codec with
      errcode := if s.codec.err = false then .illegalOp else s.codec.errcode
      err := true
      errcnt := satinc s.codec.errcnt } }) ∧
    (∀ o, exec (.illegal8F o ign) s = .next { s with codec := { s.codec with
      errcode := if s.codec.err = false then .illegalOp else s.codec.errcode
      err := true
      errcnt := satinc s.codec.errcnt } }) ∧
    (∀ d : Word, 6 ≤ (d.extractLsb' 28 4).toNat → exec (.wrCmd d) s = .next { s with codec := { s.codec with
      errcode := if s.codec.err = false then .illegalOp else s.codec.errcode
      err := true
      errcnt := satinc s.codec.errcnt } })

/-- Rule R127: every rejection, whichever command raises it and with whichever code, has exactly this effect: the
first code since the last clear is kept, ERR is set, ERRCNT counts by satinc, and nothing else changes. -/
def Obligations.RaisingAnErrorHasExactlyThisEffect : Prop :=
  ∀ (s : State) (i : Instr) (code : ErrCode),
    (((∃ o g, i = .illegal67 o g) ∨ (∃ o g, i = .illegal8F o g)) ∧ code = .illegalOp) ∨
      (∃ w wo bo, (i = .enc w wo bo ∨ i = .dec w wo bo) ∧
        checkField s.params.nBufWords w.toNat (globalOffset wo bo) = some code) →
    exec i s = .next { s with codec := { s.codec with
      errcode := if s.codec.err = false then code else s.codec.errcode
      err := true
      errcnt := satinc s.codec.errcnt } }

/-- Rule R89: the descriptor check of ENC and DEC, in its order, with the rejection it raises. A
field that passes has its last word in the buffer. -/
def Obligations.BadDescriptorIsRejected : Prop :=
  ∀ (s : State) (w : BitVec 7) (wo : BitVec 16) (bo : BitVec 5) (i : Instr),
    (i = .enc w wo bo ∨ i = .dec w wo bo) →
    (w.toNat = 0 ∨ 64 < w.toNat → exec i s = .next { s with codec := { s.codec with
      errcode := if s.codec.err = false then .badWidth else s.codec.errcode
      err := true
      errcnt := satinc s.codec.errcnt } }) ∧
    (1 ≤ w.toNat → w.toNat ≤ 64 → 32 * s.params.nBufWords < globalOffset wo bo + w.toNat →
      exec i s = .next { s with codec := { s.codec with
        errcode := if s.codec.err = false then .outOfBuffer else s.codec.errcode
        err := true
        errcnt := satinc s.codec.errcnt } }) ∧
    (LegalField s.params.nBufWords w wo bo →
      globalOffset wo bo + w.toNat - 1 ≤ 32 * s.params.nBufWords - 1 ∧
      (globalOffset wo bo + w.toNat - 1) / 32 ≤ s.params.nBufWords - 1)

/-- Rule R90: the number of fragments of a legal field. -/
def Obligations.FragmentCountOfLegalField : Prop :=
  ∀ W G : Nat, 1 ≤ W → W ≤ 64 →
    (fragments W G = 1 ↔ fieldSh G + W ≤ 32) ∧
    (fragments W G = 2 ↔ 32 < fieldSh G + W ∧ fieldSh G + W ≤ 64) ∧
    (fragments W G = 3 ↔ 64 < fieldSh G + W) ∧
    (fragments W G = 3 → 34 ≤ W ∧ 65 - W ≤ fieldSh G ∧ fieldSh G ≤ 31)

/-- Rule R91: the bit-level meaning of a successful ENC. Inside the field the bit string takes the bits of V, outside
it no bit changes. -/
def Obligations.EncWritesExactlyTheField : Prop :=
  ∀ (s : State) (w : BitVec 7) (wo : BitVec 16) (bo : BitVec 5), Memory.wf s.params s.codec.buf = true →
    LegalField s.params.nBufWords w wo bo →
    ∃ t, exec (.enc w wo bo) s = .next t ∧
      ∀ g, bitString t.codec.buf g =
        if globalOffset wo bo ≤ g ∧ g < globalOffset wo bo + w.toNat then
          s.codec.val.getLsbD (g - globalOffset wo bo)
        else bitString s.codec.buf g

/-- The frame of a successful ENC: it completes, it changes no word of BUF but the fragments of the field, and besides
BUF only VIOL_COUNT (41_codec.md section 3). -/
def Obligations.EncChangesOnlyFieldWordsAndViolCount : Prop :=
  ∀ (s : State) (w : BitVec 7) (wo : BitVec 16) (bo : BitVec 5), LegalField s.params.nBufWords w wo bo →
    ∃ t, exec (.enc w wo bo) s = .next t ∧
      t = { s with codec := { s.codec with buf := t.codec.buf, viol := t.codec.viol } } ∧
      t.codec.buf.length = s.codec.buf.length ∧
      ∀ j, j < fieldLo (globalOffset wo bo) ∨
          fieldLo (globalOffset wo bo) + fragments w.toNat (globalOffset wo bo) ≤ j →
        readBuf t.codec.buf j = readBuf s.codec.buf j

/-- Rule R93: with the check on, an ENC whose value exceeds 2^W - 1 counts one violation by satinc, a 64-bit field
never does, the field is written all the same, and with the check off nothing is counted. -/
def Obligations.EncCountsRangeViolations : Prop :=
  ∀ (s : State) (w : BitVec 7) (wo : BitVec 16) (bo : BitVec 5), Memory.wf s.params s.codec.buf = true →
    LegalField s.params.nBufWords w wo bo →
    ∃ t, exec (.enc w wo bo) s = .next t ∧
      t.codec.viol = (if s.codec.rchkEn = true ∧ 2 ^ w.toNat - 1 < s.codec.val.toNat then satinc s.codec.viol
        else s.codec.viol) ∧
      (w.toNat = 64 → t.codec.viol = s.codec.viol) ∧
      ∀ j, j < w.toNat → bitString t.codec.buf (globalOffset wo bo + j) = s.codec.val.getLsbD j

/-- Rule R95: a successful DEC sets RES to the sum of the field's bits by weight; it changes nothing else. -/
def Obligations.DecReadsTheField : Prop :=
  ∀ (s : State) (w : BitVec 7) (wo : BitVec 16) (bo : BitVec 5), LegalField s.params.nBufWords w wo bo →
    ∃ t, exec (.dec w wo bo) s = .next t ∧
      t = { s with codec := { s.codec with res := t.codec.res } } ∧
      t.codec.res.toNat =
        (Finset.range w.toNat).sum fun j => (bitString s.codec.buf (globalOffset wo bo + j)).toNat * 2 ^ j

/-- The round-trip law (41_codec.md section 4, law 1): ENC of V and then DEC of the same field gives V mod 2^W, for
every legal field and every buffer. -/
def Obligations.DecAfterEncGivesTheValue : Prop :=
  ∀ (s : State) (w : BitVec 7) (wo : BitVec 16) (bo : BitVec 5), Memory.wf s.params s.codec.buf = true →
    LegalField s.params.nBufWords w wo bo →
    ∃ t u, exec (.enc w wo bo) s = .next t ∧ exec (.dec w wo bo) t = .next u ∧
      u.codec.res.toNat = s.codec.val.toNat % 2 ^ w.toNat

/-- The frame law (41_codec.md section 4, law 2): a DEC of a field disjoint from an ENC gives the same result before
and after it. -/
def Obligations.EncKeepsDisjointFields : Prop :=
  ∀ (s : State) (w1 : BitVec 7) (wo1 : BitVec 16) (bo1 : BitVec 5) (w2 : BitVec 7) (wo2 : BitVec 16)
    (bo2 : BitVec 5), Memory.wf s.params s.codec.buf = true →
    LegalField s.params.nBufWords w1 wo1 bo1 → LegalField s.params.nBufWords w2 wo2 bo2 →
    DisjointFields w1 wo1 bo1 w2 wo2 bo2 →
    ∃ t u v, exec (.enc w1 wo1 bo1) s = .next t ∧ exec (.dec w2 wo2 bo2) s = .next u ∧
      exec (.dec w2 wo2 bo2) t = .next v ∧ v.codec.res = u.codec.res

/-- Two ENCs of disjoint fields commute, with any two values (41_codec.md section 4, law 3): the buffer and the
violation count are the same in either order. -/
def Obligations.DisjointEncsCommute : Prop :=
  ∀ (s : State) (w1 : BitVec 7) (wo1 : BitVec 16) (bo1 : BitVec 5) (w2 : BitVec 7) (wo2 : BitVec 16)
    (bo2 : BitVec 5) (v1 v2 : DWord), Memory.wf s.params s.codec.buf = true →
    LegalField s.params.nBufWords w1 wo1 bo1 → LegalField s.params.nBufWords w2 wo2 bo2 →
    DisjointFields w1 wo1 bo1 w2 wo2 bo2 →
    ∃ a ab b ba,
      exec (.enc w1 wo1 bo1) (s.withVal v1) = .next a ∧ exec (.enc w2 wo2 bo2) (a.withVal v2) = .next ab ∧
      exec (.enc w2 wo2 bo2) (s.withVal v2) = .next b ∧ exec (.enc w1 wo1 bo1) (b.withVal v1) = .next ba ∧
      ab.codec.buf = ba.codec.buf ∧ ab.codec.viol = ba.codec.viol

/-- Of two ENCs of one field the second decides the buffer (41_codec.md section 4, law 3). -/
def Obligations.SecondEncOfAFieldDecides : Prop :=
  ∀ (s : State) (w : BitVec 7) (wo : BitVec 16) (bo : BitVec 5) (v1 v2 : DWord),
    Memory.wf s.params s.codec.buf = true → LegalField s.params.nBufWords w wo bo →
    ∃ a ab b, exec (.enc w wo bo) (s.withVal v1) = .next a ∧ exec (.enc w wo bo) (a.withVal v2) = .next ab ∧
      exec (.enc w wo bo) (s.withVal v2) = .next b ∧ ab.codec.buf = b.codec.buf

/-- Rule R99: BEGIN clears VIOL_COUNT and nothing else. -/
def Obligations.BeginClearsViolCount : Prop :=
  ∀ (s : State) (ign : BitVec 28),
    exec (.beginWrite ign) s = .next { s with codec := { s.codec with viol := 0#32 } }

/-- Rule R100: CLRBUF clears every word of the buffer and nothing else. -/
def Obligations.ClrbufClearsEveryWord : Prop :=
  ∀ (s : State) (ign : BitVec 28),
    ∃ t, exec (.clrbuf ign) s = .next t ∧ t = { s with codec := { s.codec with buf := t.codec.buf } } ∧
      t.codec.buf.length = s.params.nBufWords ∧ ∀ k, readBuf t.codec.buf k = 0#32

/-! ## The validator (42_crc_validator.md) -/

/-- Rule R107: the serialisation in either order; with LE_BYTES the CRC of a word is its 32 bits processed
one at a time from bit 0 on, for every polynomial. -/
def Obligations.CrcOfWordIsBitSerial : Prop :=
  ∀ (p : Params) (c w : Word),
    (p.crcWordOrder = .beBytes →
      wordBytes p w = [w.extractLsb' 24 8, w.extractLsb' 16 8, w.extractLsb' 8 8, w.extractLsb' 0 8]) ∧
    (p.crcWordOrder = .leBytes →
      wordBytes p w = [w.extractLsb' 0 8, w.extractLsb' 8 8, w.extractLsb' 16 8, w.extractLsb' 24 8] ∧
      crcWord p c w =
        (List.range 32).foldl
          (fun (x : Word) (i : Nat) => if (x.getLsbD 0 ^^ w.getLsbD i) then (x >>> 1) ^^^ p.crcPoly else x >>> 1) c)

/-- Rule R108: the CRC of no words, of a sequence one word longer, and three values with the default parameters. -/
def Obligations.CrcOfSequences : Prop :=
  (∀ p : Params, crcWords p [] = p.crcInit ^^^ p.crcXorout) ∧
  (∀ (p : Params) (ws : List Word) (w : Word),
    crcWords p (ws ++ [w]) = crcFinal p (crcWord p (ws.foldl (crcWord p) p.crcInit) w)) ∧
  crcWords Params.default [] = 0x00000000#32 ∧
  crcWords Params.default [0x00000000#32] = 0x2144DF1C#32 ∧
  crcWords Params.default [0xFFFFFFFF#32] = 0xFFFFFFFF#32 ∧
  crcWords Params.default [0x34333231#32, 0x38373635#32] = 0x9AE0DAAF#32

/-- Rule R111: CVRST puts every register of the validator at its reset value and touches nothing else. -/
def Obligations.CvrstResetsTheValidator : Prop :=
  ∀ (s : State) (ign : BitVec 28),
    exec (.cvrst ign) s = .next { s with cv :=
      { state := .idle, hdrOk := false, hdrBad := false, bodyOk := false, bodyBad := false, term := false,
        blockid := 0#8, size := 0#24, remain := 0#24, acc := s.params.crcInit,
        blkcnt := 0#32, hdrerr := 0#32, bodyerr := 0#32 } }

/-- Rule R113: a word fed in IDLE is header word 0. -/
def Obligations.FeedInIdleTakesHeaderWord0 : Prop :=
  ∀ (s : State) (w : Word), s.cv.state = .idle →
    exec (.cvfeed w) s = .next { s with cv := { s.cv with
      hdrOk := false, hdrBad := false, bodyOk := false, bodyBad := false, term := false
      blockid := w.extractLsb' 24 8
      size := 0#24, remain := 0#24
      acc := crcWord s.params s.params.crcInit w
      state := .hdr1 } }

/-- Rule R114: a word fed in HDR1 is the size word. -/
def Obligations.FeedInHdr1TakesSizeWord : Prop :=
  ∀ (s : State) (w : Word), s.cv.state = .hdr1 →
    exec (.cvfeed w) s = .next { s with cv := { s.cv with
      size := w.extractLsb' 0 24, remain := w.extractLsb' 0 24
      acc := crcWord s.params s.cv.acc w
      state := .hcrc } }

/-- Rule R115: a word fed in HCRC ends the terminator if the size is 0, and else is compared with the header's CRC. -/
def Obligations.FeedInHcrcChecksHeader : Prop :=
  ∀ (s : State) (w : Word), s.cv.state = .hcrc →
    (s.cv.size = 0#24 → exec (.cvfeed w) s = .next { s with cv := { s.cv with
      term := true, acc := s.params.crcInit, state := .idle } }) ∧
    (s.cv.size ≠ 0#24 → crcFinal s.params s.cv.acc = w → exec (.cvfeed w) s = .next { s with cv := { s.cv with
      hdrOk := true, acc := s.params.crcInit, state := .body } }) ∧
    (s.cv.size ≠ 0#24 → crcFinal s.params s.cv.acc ≠ w → exec (.cvfeed w) s = .next { s with cv := { s.cv with
      hdrBad := true, hdrerr := satinc s.cv.hdrerr, acc := s.params.crcInit, state := .body } })

/-- Rule R116: a word fed in BODY enters the CRC and is counted off; the last one leads to BCRC. CV_REMAIN is at
least 1 in BODY in every state that meets the invariant. -/
def Obligations.FeedInBodyCountsWords : Prop :=
  ∀ (s : State) (w : Word), s.Inv → s.cv.state = .body →
    ∃ t, exec (.cvfeed w) s = .next t ∧
      t = { s with cv := { s.cv with acc := t.cv.acc, remain := t.cv.remain, state := t.cv.state } } ∧
      t.cv.acc = crcWord s.params s.cv.acc w ∧
      t.cv.remain.toNat + 1 = s.cv.remain.toNat ∧
      t.cv.state = (if s.cv.remain.toNat = 1 then .bcrc else .body)

/-- Rule R117: a word fed in BCRC is compared with the body's CRC, the block is counted, and the framing returns to
IDLE; CV_SIZE and CV_BLOCKID keep their values. -/
def Obligations.FeedInBcrcChecksBody : Prop :=
  ∀ (s : State) (w : Word), s.cv.state = .bcrc →
    (crcFinal s.params s.cv.acc = w → exec (.cvfeed w) s = .next { s with cv := { s.cv with
      bodyOk := true, blkcnt := satinc s.cv.blkcnt, acc := s.params.crcInit, state := .idle } }) ∧
    (crcFinal s.params s.cv.acc ≠ w → exec (.cvfeed w) s = .next { s with cv := { s.cv with
      bodyBad := true, bodyerr := satinc s.cv.bodyerr, blkcnt := satinc s.cv.blkcnt,
      acc := s.params.crcInit, state := .idle } })

/-- Rule R109: the header CRC of a block is checked over both whole header words before it. -/
def Obligations.HeaderVerdictCoversBothHeaderWords : Prop :=
  ∀ (s : State) (h0 h1 hcrc : Word), s.cv.state = .idle → h1.extractLsb' 0 24 ≠ 0#24 →
    ∃ t, execAll [.cvfeed h0, .cvfeed h1, .cvfeed hcrc] s = .next t ∧ t.cv.state = .body ∧
      t.cv.hdrOk = decide (crcWords s.params [h0, h1] = hcrc) ∧
      t.cv.hdrBad = decide (crcWords s.params [h0, h1] ≠ hcrc)

/-- Rule R110: the body CRC of a block is checked over exactly its body words, for a body of any length. -/
def Obligations.BodyVerdictCoversTheBody : Prop :=
  ∀ (s : State) (body : List Word) (bcrc : Word), s.cv.state = .body → s.cv.acc = s.params.crcInit →
    s.cv.bodyOk = false → s.cv.bodyBad = false → body ≠ [] → s.cv.remain.toNat = body.length →
    ∃ t, execAll ((body ++ [bcrc]).map .cvfeed) s = .next t ∧ t.cv.state = .idle ∧
      t.cv.bodyOk = decide (crcWords s.params body = bcrc) ∧
      t.cv.bodyBad = decide (crcWords s.params body ≠ bcrc) ∧
      t.cv.blkcnt = satinc s.cv.blkcnt

/-- Rule R118: the verdicts are advisory. Feeding never changes anything but the validator, and a mismatch differs
from a match only in the verdict flag and the matching counter. -/
def Obligations.VerdictsAreAdvisory : Prop :=
  (∀ (s : State) (w : Word), ∃ t, exec (.cvfeed w) s = .next t ∧ t = { s with cv := t.cv }) ∧
  (∀ (s : State) (good bad : Word), s.cv.state = .hcrc → s.cv.size ≠ 0#24 →
    crcFinal s.params s.cv.acc = good → crcFinal s.params s.cv.acc ≠ bad →
    ∃ t u, exec (.cvfeed good) s = .next t ∧ exec (.cvfeed bad) s = .next u ∧
      u = { t with cv := { t.cv with hdrOk := s.cv.hdrOk, hdrBad := true, hdrerr := satinc s.cv.hdrerr } }) ∧
  (∀ (s : State) (good bad : Word), s.cv.state = .bcrc →
    crcFinal s.params s.cv.acc = good → crcFinal s.params s.cv.acc ≠ bad →
    ∃ t u, exec (.cvfeed good) s = .next t ∧ exec (.cvfeed bad) s = .next u ∧
      u = { t with cv := { t.cv with bodyOk := s.cv.bodyOk, bodyBad := true, bodyerr := satinc s.cv.bodyerr } })

/-- Rule R123: the outcome of a whole blob, for any number of blocks of any length: after CVRST and the feeding of
the words from 1 on, the framing is back in IDLE at the terminator, the counters hold the numbers of blocks and of
mismatches (saturating, rule R10), the four CRC flags are 0, and the codec is untouched. -/
def Obligations.WholeBlobOutcome : Prop :=
  ∀ (s : State) (blocks : List CfgBlock) (t0 t1 globalCrc : Word), (∀ b ∈ blocks, b.Framed) →
    t1.extractLsb' 0 24 = 0#24 →
    ∃ t, execAll (.cvrst 0#28 :: (blobWords blocks t0 t1 globalCrc).map .cvfeed) s = .next t ∧
      t.cv.state = .idle ∧ t.cv.term = true ∧
      t.cv.blkcnt.toNat = saturated blocks.length ∧
      t.cv.hdrerr.toNat = saturated (blocks.countP (CfgBlock.hdrMismatch s.params)) ∧
      t.cv.bodyerr.toNat = saturated (blocks.countP (CfgBlock.bodyMismatch s.params)) ∧
      t.cv.hdrOk = false ∧ t.cv.hdrBad = false ∧ t.cv.bodyOk = false ∧ t.cv.bodyBad = false ∧
      t.codec = s.codec

/-! ## Whole-machine rules (10_state.md, 60_exceptions.md) -/

/-- Rule R10: the saturating increment. -/
def Obligations.CountersSaturate : Prop :=
  ∀ c : Word, (satinc c).toNat = if c.toNat < 0xFFFFFFFF then c.toNat + 1 else 0xFFFFFFFF

/-- Only a rejected command or a clear touches the error record, and a rejected command touches nothing else
(60_exceptions.md section 4). What can be rejected is ENC, DEC, a reserved OP, or the write to CMD of such a word. -/
def Obligations.RejectionIsPrecise : Prop :=
  ∀ (i : Instr) (s t : State), exec i s = .next t →
    (t.codec.err = s.codec.err ∧ t.codec.errcode = s.codec.errcode ∧ t.codec.errcnt = s.codec.errcnt) ∨
    ((∃ d, i = .wrStatus d ∧ d.getLsbD 0 = true) ∧
      t.codec.err = false ∧ t.codec.errcode = .none ∧ t.codec.errcnt = 0#32) ∨
    (((∃ w wo bo, i = .enc w wo bo) ∨ (∃ w wo bo, i = .dec w wo bo) ∨ (∃ o g, i = .illegal67 o g) ∨
        (∃ o g, i = .illegal8F o g) ∨
        ∃ d, i = .wrCmd d ∧
          (d.extractLsb' 28 4 = 0x1#4 ∨ d.extractLsb' 28 4 = 0x2#4 ∨ 6 ≤ (d.extractLsb' 28 4).toNat)) ∧
      ∃ code, code ≠ .none ∧ t = { s with codec := { s.codec with
        errcode := if s.codec.err = false then code else s.codec.errcode
        err := true
        errcnt := satinc s.codec.errcnt } })

/-- ERR blocks nothing: two states that differ only in the error record go to states that differ only in it, for
every instruction but a read, which may return it (60_exceptions.md section 4). -/
def Obligations.ErrorRecordBlocksNothing : Prop :=
  ∀ (i : Instr) (s t : State) (err : Bool) (code : ErrCode) (cnt : Word), (∀ off, i ≠ .rd off) →
    exec i s = .next t →
    ∃ u, exec i { s with codec := { s.codec with err := err, errcode := code, errcnt := cnt } } = .next u ∧
      t = { u with codec := { u.codec with
        err := t.codec.err, errcode := t.codec.errcode, errcnt := t.codec.errcnt } }

/-- RES, VAL, RCHK_EN, VIOL_COUNT and BUF change only by their owners (the codec's other registers, ERR, ERRCODE and
ERRCNT, are those of `RejectionIsPrecise`): RES by DEC, VAL by its two writes, RCHK_EN by the write of
CTRL, VIOL_COUNT by ENC and BEGIN, BUF by its writes, ENC and CLRBUF; a command acts through a write to CMD too
(10_state.md section 3). -/
def Obligations.CodecRegistersChangeOnlyByTheirOwners : Prop :=
  ∀ (i : Instr) (s t : State), exec i s = .next t →
    (t.codec.res ≠ s.codec.res →
      (∃ w wo bo, i = .dec w wo bo) ∨ ∃ d, i = .wrCmd d ∧ d.extractLsb' 28 4 = 0x2#4) ∧
    (t.codec.val ≠ s.codec.val → ∃ d, i = .wrValLo d ∨ i = .wrValHi d) ∧
    (t.codec.rchkEn ≠ s.codec.rchkEn → ∃ d, i = .wrCtrl d) ∧
    (t.codec.viol ≠ s.codec.viol →
      (∃ w wo bo, i = .enc w wo bo) ∨ (∃ g, i = .beginWrite g) ∨
      ∃ d, i = .wrCmd d ∧ (d.extractLsb' 28 4 = 0x1#4 ∨ d.extractLsb' 28 4 = 0x3#4)) ∧
    (t.codec.buf ≠ s.codec.buf →
      (∃ w wo bo, i = .enc w wo bo) ∨ (∃ g, i = .clrbuf g) ∨ (∃ k d, i = .wrBuf k d) ∨
      ∃ d, i = .wrCmd d ∧ (d.extractLsb' 28 4 = 0x1#4 ∨ d.extractLsb' 28 4 = 0x4#4))

/-- The validator moves only when it is fed or reset: every other instruction leaves it in its position, without
timeout (42_crc_validator.md section 4). -/
def Obligations.ValidatorMovesOnlyWhenFedOrReset : Prop :=
  ∀ (i : Instr) (s t : State), exec i s = .next t → t.cv ≠ s.cv →
    (∃ w, i = .cvfeed w) ∨ (∃ g, i = .cvrst g) ∨ ∃ d, i = .wrCmd d ∧ d.extractLsb' 28 4 = 0x5#4

/-- The two units are independent (00_scope.md section 1): what an instruction does to the validator does not depend
on the codec, nor the reverse. -/
def Obligations.UnitsDoNotInterfere : Prop :=
  ∀ (i : Instr) (s1 s2 t1 t2 : State), s1.params = s2.params → exec i s1 = .next t1 → exec i s2 = .next t2 →
    (s1.cv = s2.cv → t1.cv = t2.cv) ∧ (s1.codec = s2.codec → t1.codec = t2.codec)

/-- Every read returns one word and no other instruction returns any; no instruction touches what is pending
(20_memory.md sections 3 and 5; the two records are the model's, assumption log 1). -/
def Obligations.OnlyReadsReturnWords : Prop :=
  ∀ (i : Instr) (s t : State), exec i s = .next t →
    t.pending = s.pending ∧
    ((∃ off, i = .rd off ∧ t.returned = s.returned ++ [readReg s off]) ∨
      ((∀ off, i ≠ .rd off) ∧ t.returned = s.returned))

/-! ## Reset and the invariant (70_reset_and_hazards.md) -/

/-- Rule R143: the reset value of every register, for every instance. -/
def Obligations.ResetValues : Prop :=
  ∀ p : Params,
    (State.resetWith p).codec.rchkEn = false ∧ (State.resetWith p).codec.err = false ∧
    errCodeBits (State.resetWith p).codec.errcode = 0#3 ∧ (State.resetWith p).codec.errcnt = 0#32 ∧
    (State.resetWith p).codec.val = 0#64 ∧ (State.resetWith p).codec.res = 0#64 ∧
    (State.resetWith p).codec.viol = 0#32 ∧ (State.resetWith p).codec.buf.length = p.nBufWords ∧
    (∀ k, k < p.nBufWords → readBuf (State.resetWith p).codec.buf k = 0#32) ∧
    cvStateBits (State.resetWith p).cv.state = 0#3 ∧ (State.resetWith p).cv.hdrOk = false ∧
    (State.resetWith p).cv.hdrBad = false ∧ (State.resetWith p).cv.bodyOk = false ∧
    (State.resetWith p).cv.bodyBad = false ∧ (State.resetWith p).cv.term = false ∧
    (State.resetWith p).cv.blockid = 0#8 ∧ (State.resetWith p).cv.size = 0#24 ∧
    (State.resetWith p).cv.remain = 0#24 ∧ (State.resetWith p).cv.acc = p.crcInit ∧
    (State.resetWith p).cv.blkcnt = 0#32 ∧ (State.resetWith p).cv.hdrerr = 0#32 ∧
    (State.resetWith p).cv.bodyerr = 0#32 ∧
    readReg (State.resetWith p) 0x009#17 = BitVec.ofNat 32 p.nBufWords

/-- Rule R144: the block reset is one step, which leaves the parameters; no single instruction resets the codec from
every state; and the seven writes of the rule reach the same state from any state, except that RES keeps its value.
What is pending and returned is the model's own and stays (assumption log 11). -/
def Obligations.SoftwareReachesTheResetState : Prop :=
  (∀ (s : State) (rest : List Event), s.pending = .reset :: rest →
    step s = .next { State.resetWith s.params with pending := rest, returned := s.returned }) ∧
  (∀ p : Params, ∃ s : State, s.params = p ∧
    ∀ (i : Instr) (t : State), exec i s = .next t → t.codec ≠ Codec.reset p.nBufWords) ∧
  (∀ s : State,
    execAll [.wrStatus 0x00000001#32, .wrCtrl 0x00000000#32, .wrValLo 0x00000000#32, .wrValHi 0x00000000#32,
        .wrCmd 0x30000000#32, .wrCmd 0x40000000#32, .wrCmd 0x50000000#32] s =
      .next { State.resetWith s.params with
        codec := { Codec.reset s.params.nBufWords with res := s.codec.res }
        pending := s.pending, returned := s.returned })

/-- No step changes the parameters of the instance, a block reset included (70_reset_and_hazards.md section 1). -/
def Obligations.ParametersAreFixed : Prop :=
  ∀ s t : State, step s = .next t → t.params = s.params

/-- The reset state of every legal instance meets the invariant, the default one with it. -/
def Obligations.ResetMeetsTheInvariant : Prop :=
  (∀ p : Params, p.wf = true → (State.resetWith p).Inv) ∧ State.reset.Inv

/-- Every step keeps the invariant: legal parameters, a buffer of N_BUF_WORDS words, ERRCODE 0 while ERR = 0, HDR_OK
and HDR_BAD never both 1 nor BODY_OK and BODY_BAD, CV_REMAIN at least 1 in BODY, and the accumulator at CRC_INIT in
IDLE. -/
def Obligations.EveryStepKeepsTheInvariant : Prop :=
  ∀ s t : State, s.Inv → step s = .next t → t.Inv
end

