-- ==== Sys2Proof/Laws/Decode.lean ====
section
/-! SUPPORT. The slices of the words the encoder builds, and when the decoder rejects. -/

namespace Sys2Proof

/-! ## Slices of a concatenation -/

theorem slice_above {m n : Nat} (a : BitVec m) (b : BitVec n) (k len : Nat) :
    (a ++ b).extractLsb' (n + k) len = a.extractLsb' k len := by
  ext i h
  simp [BitVec.getLsbD_append, show ¬(n + k + i < n) by omega, show n + k + i - n = k + i by omega]

theorem slice_below {m n : Nat} (a : BitVec m) (b : BitVec n) (k len : Nat) (h : k + len ≤ n) :
    (a ++ b).extractLsb' k len = b.extractLsb' k len := by
  ext i hi
  simp [BitVec.getLsbD_append, show k + i < n by omega]

theorem slice_whole {n : Nat} (a : BitVec n) : a.extractLsb' 0 n = a := by
  ext i h
  simp

theorem slice_high {m n : Nat} (a : BitVec m) (b : BitVec n) : (a ++ b).extractLsb' n m = a := by
  have := slice_above a b 0 m
  rwa [Nat.add_zero, slice_whole] at this

theorem slice_low {m n : Nat} (a : BitVec m) (b : BitVec n) : (a ++ b).extractLsb' 0 n = b := by
  rw [slice_below a b 0 n (by omega), slice_whole]

/-! ## Command words -/

theorem cmdWord_op (op : BitVec 4) (low : BitVec 28) : (cmdWord op low).extractLsb' 28 4 = op :=
  slice_high op low

theorem cmdWord_low (op : BitVec 4) (low : BitVec 28) : (cmdWord op low).extractLsb' 0 28 = low :=
  slice_low op low

theorem cmdWord_top (op : BitVec 4) (low : BitVec 28) :
    (cmdWord op low).extractLsb' 29 3 = op.extractLsb' 1 3 :=
  slice_above op low 1 3

theorem cmdWord_op_part (op : BitVec 4) (low : BitVec 28) (m : Nat) :
    (cmdWord op low).extractLsb' 28 m = op.extractLsb' 0 m :=
  slice_above op low 0 m

theorem fieldWord_op (op : BitVec 4) (w : BitVec 7) (wo : BitVec 16) (bo : BitVec 5) :
    (fieldWord op w wo bo).extractLsb' 28 4 = op :=
  (slice_above (op ++ w ++ wo) bo 23 4).trans <|
    (slice_above (op ++ w) wo 7 4).trans (slice_high op w)

theorem fieldWord_width (op : BitVec 4) (w : BitVec 7) (wo : BitVec 16) (bo : BitVec 5) :
    (fieldWord op w wo bo).extractLsb' 21 7 = w :=
  (slice_above (op ++ w ++ wo) bo 16 7).trans <|
    (slice_above (op ++ w) wo 0 7).trans (slice_low op w)

theorem fieldWord_wordOff (op : BitVec 4) (w : BitVec 7) (wo : BitVec 16) (bo : BitVec 5) :
    (fieldWord op w wo bo).extractLsb' 5 16 = wo :=
  (slice_above (op ++ w ++ wo) bo 0 16).trans (slice_low (op ++ w) wo)

theorem fieldWord_bitOff (op : BitVec 4) (w : BitVec 7) (wo : BitVec 16) (bo : BitVec 5) :
    (fieldWord op w wo bo).extractLsb' 0 5 = bo :=
  slice_low (op ++ w ++ wo) bo

/-! ## Rejection -/

/-- The decoder's only rejection of a write is an offset at or above the end of the window. -/
theorem decodeWrite_error {p : Params} {off : Offset} {d : Word} {e : Reject}
    (h : decodeWrite p off d = .error e) : inWindow p off = false := by
  by_contra hin
  have hin : inWindow p off = true := by simpa using hin
  unfold decodeWrite at h
  rw [if_pos hin] at h
  split_ifs at h

end Sys2Proof
end

