-- ==== Sys2Proof/Laws/State.lean ====
section
/-! SUPPORT. One lemma per field per update of the state, true by rfl, so that no proof unfolds a record update. -/

namespace Sys2Proof.Machine

/-! ## returnWord: a read returns a word and writes nothing -/

@[simp] theorem returnWord_params (w : Word) (s : State) : (returnWord w s).params = s.params := rfl
@[simp] theorem returnWord_codec (w : Word) (s : State) : (returnWord w s).codec = s.codec := rfl
@[simp] theorem returnWord_cv (w : Word) (s : State) : (returnWord w s).cv = s.cv := rfl
@[simp] theorem returnWord_pending (w : Word) (s : State) : (returnWord w s).pending = s.pending := rfl
@[simp] theorem returnWord_returned (w : Word) (s : State) :
    (returnWord w s).returned = s.returned ++ [w] := rfl

/-! ## cmdError: a rejection writes the error record only -/

@[simp] theorem cmdError_params (e : ErrCode) (s : State) : (cmdError e s).params = s.params := rfl
@[simp] theorem cmdError_codec (e : ErrCode) (s : State) : (cmdError e s).codec = recordError e s.codec := rfl
@[simp] theorem cmdError_cv (e : ErrCode) (s : State) : (cmdError e s).cv = s.cv := rfl
@[simp] theorem cmdError_pending (e : ErrCode) (s : State) : (cmdError e s).pending = s.pending := rfl
@[simp] theorem cmdError_returned (e : ErrCode) (s : State) : (cmdError e s).returned = s.returned := rfl

@[simp] theorem recordError_rchkEn (e : ErrCode) (c : Codec) : (recordError e c).rchkEn = c.rchkEn := rfl
@[simp] theorem recordError_err (e : ErrCode) (c : Codec) : (recordError e c).err = true := rfl
@[simp] theorem recordError_errcode (e : ErrCode) (c : Codec) :
    (recordError e c).errcode = if c.err then c.errcode else e := rfl
@[simp] theorem recordError_errcnt (e : ErrCode) (c : Codec) : (recordError e c).errcnt = satinc c.errcnt := rfl
@[simp] theorem recordError_val (e : ErrCode) (c : Codec) : (recordError e c).val = c.val := rfl
@[simp] theorem recordError_res (e : ErrCode) (c : Codec) : (recordError e c).res = c.res := rfl
@[simp] theorem recordError_viol (e : ErrCode) (c : Codec) : (recordError e c).viol = c.viol := rfl
@[simp] theorem recordError_buf (e : ErrCode) (c : Codec) : (recordError e c).buf = c.buf := rfl

@[simp] theorem clearErrors_rchkEn (c : Codec) : (clearErrors c).rchkEn = c.rchkEn := rfl
@[simp] theorem clearErrors_err (c : Codec) : (clearErrors c).err = false := rfl
@[simp] theorem clearErrors_errcode (c : Codec) : (clearErrors c).errcode = .none := rfl
@[simp] theorem clearErrors_errcnt (c : Codec) : (clearErrors c).errcnt = 0#32 := rfl
@[simp] theorem clearErrors_val (c : Codec) : (clearErrors c).val = c.val := rfl
@[simp] theorem clearErrors_res (c : Codec) : (clearErrors c).res = c.res := rfl
@[simp] theorem clearErrors_viol (c : Codec) : (clearErrors c).viol = c.viol := rfl
@[simp] theorem clearErrors_buf (c : Codec) : (clearErrors c).buf = c.buf := rfl

/-! ## What accepted commands write -/

@[simp] theorem encCodec_rchkEn (W G : Nat) (c : Codec) : (encCodec W G c).rchkEn = c.rchkEn := rfl
@[simp] theorem encCodec_err (W G : Nat) (c : Codec) : (encCodec W G c).err = c.err := rfl
@[simp] theorem encCodec_errcode (W G : Nat) (c : Codec) : (encCodec W G c).errcode = c.errcode := rfl
@[simp] theorem encCodec_errcnt (W G : Nat) (c : Codec) : (encCodec W G c).errcnt = c.errcnt := rfl
@[simp] theorem encCodec_val (W G : Nat) (c : Codec) : (encCodec W G c).val = c.val := rfl
@[simp] theorem encCodec_res (W G : Nat) (c : Codec) : (encCodec W G c).res = c.res := rfl
@[simp] theorem encCodec_viol (W G : Nat) (c : Codec) :
    (encCodec W G c).viol = if rangeViolation c.rchkEn W c.val then satinc c.viol else c.viol := rfl
@[simp] theorem encCodec_buf (W G : Nat) (c : Codec) :
    (encCodec W G c).buf = encodeField W G c.val c.buf := rfl

@[simp] theorem decCodec_rchkEn (W G : Nat) (c : Codec) : (decCodec W G c).rchkEn = c.rchkEn := rfl
@[simp] theorem decCodec_err (W G : Nat) (c : Codec) : (decCodec W G c).err = c.err := rfl
@[simp] theorem decCodec_errcode (W G : Nat) (c : Codec) : (decCodec W G c).errcode = c.errcode := rfl
@[simp] theorem decCodec_errcnt (W G : Nat) (c : Codec) : (decCodec W G c).errcnt = c.errcnt := rfl
@[simp] theorem decCodec_val (W G : Nat) (c : Codec) : (decCodec W G c).val = c.val := rfl
@[simp] theorem decCodec_res (W G : Nat) (c : Codec) : (decCodec W G c).res = decodeField W G c.buf := rfl
@[simp] theorem decCodec_viol (W G : Nat) (c : Codec) : (decCodec W G c).viol = c.viol := rfl
@[simp] theorem decCodec_buf (W G : Nat) (c : Codec) : (decCodec W G c).buf = c.buf := rfl

/-! ## withVal, the block reset and the reset state -/

@[simp] theorem withVal_params (s : State) (v : DWord) : (s.withVal v).params = s.params := rfl
@[simp] theorem withVal_codec (s : State) (v : DWord) : (s.withVal v).codec = { s.codec with val := v } := rfl
@[simp] theorem withVal_cv (s : State) (v : DWord) : (s.withVal v).cv = s.cv := rfl
@[simp] theorem withVal_pending (s : State) (v : DWord) : (s.withVal v).pending = s.pending := rfl
@[simp] theorem withVal_returned (s : State) (v : DWord) : (s.withVal v).returned = s.returned := rfl

@[simp] theorem blockReset_params (s : State) : (blockReset s).params = s.params := rfl
@[simp] theorem blockReset_codec (s : State) : (blockReset s).codec = Codec.reset s.params.nBufWords := rfl
@[simp] theorem blockReset_cv (s : State) : (blockReset s).cv = Validator.reset s.params := rfl
@[simp] theorem blockReset_pending (s : State) : (blockReset s).pending = s.pending := rfl
@[simp] theorem blockReset_returned (s : State) : (blockReset s).returned = s.returned := rfl

@[simp] theorem resetWith_params (p : Params) : (State.resetWith p).params = p := rfl
@[simp] theorem resetWith_codec (p : Params) : (State.resetWith p).codec = Codec.reset p.nBufWords := rfl
@[simp] theorem resetWith_cv (p : Params) : (State.resetWith p).cv = Validator.reset p := rfl
@[simp] theorem resetWith_pending (p : Params) : (State.resetWith p).pending = [] := rfl
@[simp] theorem resetWith_returned (p : Params) : (State.resetWith p).returned = [] := rfl

end Sys2Proof.Machine
end

