-- ==== Sys2Proof/Laws/Ops.lean ====
section
/-! SUPPORT. One lemma per shared operation that says what it does: counters, the descriptor check, the word
buffer and its bit string. -/

namespace Sys2Proof.Machine

/-! ## Counters -/

theorem satinc_toNat (c : Word) : (satinc c).toNat = min (c.toNat + 1) 0xFFFFFFFF := by
  unfold satinc
  split
  · rw [BitVec.toNat_add]
    simp only [BitVec.toNat_ofNat]
    omega
  · simp only [BitVec.toNat_ofNat]
    have := c.isLt
    omega

theorem satinc_ne_zero (c : Word) : satinc c ≠ 0#32 := by
  intro h
  have := satinc_toNat c
  rw [h, BitVec.toNat_ofNat] at this
  omega

/-! ## The descriptor check -/

theorem checkField_none_iff (n W G : Nat) : checkField n W G = none ↔ 1 ≤ W ∧ W ≤ 64 ∧ G + W ≤ 32 * n := by
  unfold checkField
  split
  · simp; omega
  · split <;> simp <;> omega

theorem checkField_badWidth_iff (n W G : Nat) : checkField n W G = some .badWidth ↔ W = 0 ∨ 64 < W := by
  unfold checkField
  split
  · simpa
  · split <;> simp <;> omega

theorem checkField_outOfBuffer_iff (n W G : Nat) :
    checkField n W G = some .outOfBuffer ↔ 1 ≤ W ∧ W ≤ 64 ∧ 32 * n < G + W := by
  unfold checkField
  split
  · simp; omega
  · split <;> simp <;> omega

theorem execEnc_accepted {s : State} {w : BitVec 7} {wo : BitVec 16} {bo : BitVec 5}
    (h : LegalField s.params.nBufWords w wo bo) :
    execEnc w wo bo s = .next { s with codec := encCodec w.toNat (globalOffset wo bo) s.codec } := by
  have : checkField s.params.nBufWords (fieldWidth w) (globalOffset wo bo) = none :=
    (checkField_none_iff _ _ _).2 h
  simp only [execEnc, this]
  rfl

theorem execDec_accepted {s : State} {w : BitVec 7} {wo : BitVec 16} {bo : BitVec 5}
    (h : LegalField s.params.nBufWords w wo bo) :
    execDec w wo bo s = .next { s with codec := decCodec w.toNat (globalOffset wo bo) s.codec } := by
  have : checkField s.params.nBufWords (fieldWidth w) (globalOffset wo bo) = none :=
    (checkField_none_iff _ _ _).2 h
  simp only [execDec, this]
  rfl

/-! ## The word buffer -/

theorem readBuf_writeBuf_same {buf : List Word} {k : Nat} (h : k < buf.length) (d : Word) :
    readBuf (writeBuf buf k d) k = d := by
  simp [readBuf, writeBuf, h]

theorem readBuf_writeBuf_other {buf : List Word} {j k : Nat} (h : j ≠ k) (d : Word) :
    readBuf (writeBuf buf k d) j = readBuf buf j := by
  simp [readBuf, writeBuf, List.getElem?_set_ne (Ne.symm h)]

@[simp] theorem length_writeBuf (buf : List Word) (k : Nat) (d : Word) :
    (writeBuf buf k d).length = buf.length := by
  simp [writeBuf]

@[simp] theorem length_clearBuf (p : Params) : (clearBuf p).length = p.nBufWords := by
  simp [clearBuf]

@[simp] theorem readBuf_clearBuf (p : Params) (k : Nat) : readBuf (clearBuf p) k = 0#32 := by
  simp [readBuf, clearBuf, List.getD_eq_getElem?_getD, List.getElem?_replicate]
  split <;> rfl

/-- A loop of buffer writes keeps the length. -/
theorem length_foldl_writeBuf (f : List Word → Nat → Nat) (g : List Word → Nat → Word) (ks : List Nat)
    (buf : List Word) : (ks.foldl (fun b k => writeBuf b (f b k) (g b k)) buf).length = buf.length := by
  induction ks generalizing buf with
  | nil => rfl
  | cons k ks ih => simp [ih]

@[simp] theorem length_encodeField (W G : Nat) (V : DWord) (buf : List Word) :
    (encodeField W G V buf).length = buf.length :=
  length_foldl_writeBuf _ _ _ _

/-! Every buffer operation keeps the canonical form. -/

theorem memory_wf_iff (p : Params) (buf : List Word) : Memory.wf p buf = true ↔ buf.length = p.nBufWords := by
  simp [Memory.wf]

theorem memory_wf_writeBuf {p : Params} {buf : List Word} (h : Memory.wf p buf = true) (k : Nat) (d : Word) :
    Memory.wf p (writeBuf buf k d) = true := by
  simpa [Memory.wf] using h

theorem memory_wf_encodeField {p : Params} {buf : List Word} (h : Memory.wf p buf = true) (W G : Nat)
    (V : DWord) : Memory.wf p (encodeField W G V buf) = true := by
  simpa [Memory.wf] using h

theorem memory_wf_clearBuf (p : Params) : Memory.wf p (clearBuf p) = true := by
  simp [Memory.wf]

theorem memory_wf_reset (p : Params) : Memory.wf p (Codec.reset p.nBufWords).buf = true := by
  simp [Memory.wf, Codec.reset]

/-- A loop of writes at base, base + 1, ..., each computed from the word it replaces: word base + k becomes
`f k` of its old value for every k below n, and no other word changes. -/
theorem readBuf_writeLoop (f : Nat → Word → Word) (base n : Nat) (buf : List Word) (h : base + n ≤ buf.length)
    (j : Nat) :
    readBuf ((List.range n).foldl (fun b k => writeBuf b (base + k) (f k (readBuf b (base + k)))) buf) j =
      if base ≤ j ∧ j < base + n then f (j - base) (readBuf buf j) else readBuf buf j := by
  induction n with
  | zero => simp
  | succ n ih =>
    have ih := ih (by omega)
    rw [List.range_succ, List.foldl_append]
    simp only [List.foldl_cons, List.foldl_nil]
    have hlen : base + n < ((List.range n).foldl
        (fun b k => writeBuf b (base + k) (f k (readBuf b (base + k)))) buf).length := by
      rw [length_foldl_writeBuf (fun _ k => base + k) (fun b k => f k (readBuf b (base + k)))]
      omega
    rcases Nat.lt_trichotomy j (base + n) with hj | hj | hj
    · rw [readBuf_writeBuf_other (by omega), ih]
      by_cases hb : base ≤ j
      · rw [if_pos ⟨hb, hj⟩, if_pos ⟨hb, by omega⟩]
      · rw [if_neg (by omega), if_neg (by omega)]
    · subst hj
      rw [readBuf_writeBuf_same hlen, if_pos (by omega)]
      congr 1
      · omega
      · rw [ih, if_neg (by omega)]
    · rw [readBuf_writeBuf_other (by omega), ih, if_neg (by omega), if_neg (by omega)]

/-- ENC's loop, word by word (41_codec.md rule R92). -/
theorem readBuf_encodeField {W G : Nat} {V : DWord} {buf : List Word}
    (h : fieldLo G + fragments W G ≤ buf.length) (j : Nat) :
    readBuf (encodeField W G V buf) j =
      if fieldLo G ≤ j ∧ j < fieldLo G + fragments W G then
        (readBuf buf j &&& ~~~(fieldMaskWord W G (j - fieldLo G))) ||| fieldDataWord W G V (j - fieldLo G)
      else readBuf buf j :=
  readBuf_writeLoop (fun k w => (w &&& ~~~(fieldMaskWord W G k)) ||| fieldDataWord W G V k) _ _ _ h j

/-- The last word of a legal field is a word of the buffer (41_codec.md rule R89). -/
theorem legalField_words {n W G : Nat} (hw : 1 ≤ W) (h : G + W ≤ 32 * n) : fieldLo G + fragments W G ≤ n := by
  unfold fieldLo fragments fieldSh
  omega

/-- Buffers of one length with the same words are equal. -/
theorem buf_ext {a b : List Word} (hl : a.length = b.length) (h : ∀ k, k < a.length → readBuf a k = readBuf b k) :
    a = b := by
  apply List.ext_getElem hl
  intro k h1 h2
  have := h k h1
  simpa [readBuf, List.getD_eq_getElem?_getD, List.getElem?_eq_getElem h1, List.getElem?_eq_getElem h2] using this

/-- Buffers of one length with the same bit string are equal. -/
theorem buf_ext_bits {a b : List Word} (hl : a.length = b.length)
    (h : ∀ g, g < 32 * a.length → bitString a g = bitString b g) : a = b := by
  apply buf_ext hl
  intro k hk
  apply BitVec.eq_of_getLsbD_eq
  intro i hi
  have := h (32 * k + i) (by omega)
  simpa [bitString, Nat.mul_add_div, Nat.div_eq_of_lt hi, Nat.mod_eq_of_lt hi] using this

/-! ## Slices and masks -/

theorem getLsbD_wordSlice (x k i : Nat) (hi : i < 32) : (wordSlice x k).getLsbD i = x.testBit (32 * k + i) := by
  simp [wordSlice, hi, BitVec.getLsbD_ofNat, -BitVec.getLsbD_eq_getElem]

theorem testBit_mask (W i : Nat) : (mask W).testBit i = decide (i < W) := by
  simp [mask, Nat.testBit_two_pow_sub_one]

/-- The bits DEC gathers, before it aligns them: bit i of X is bit 32 * lo + i of the bit string (41_codec.md rule
R97). -/
theorem testBit_gatherLoop (buf : List Word) (base n i : Nat) :
    ((List.range n).foldl (fun x k => x ||| ((readBuf buf (base + k)).toNat <<< (32 * k))) 0).testBit i =
      (decide (i < 32 * n) && bitString buf (32 * base + i)) := by
  induction n with
  | zero => simp
  | succ n ih =>
    rw [List.range_succ, List.foldl_append]
    simp only [List.foldl_cons, List.foldl_nil, Nat.testBit_or, ih, Nat.testBit_shiftLeft]
    by_cases h : 32 * n ≤ i
    · by_cases h2 : i < 32 * (n + 1)
      · have e1 : (32 * base + i) / 32 = base + n := by omega
        have e2 : (32 * base + i) % 32 = i - 32 * n := by omega
        simp [bitString, h, h2, e1, e2, Nat.not_lt.2 h, BitVec.testBit_toNat]
      · have : 32 ≤ i - 32 * n := by omega
        simp [h2, Nat.not_lt.2 h, BitVec.testBit_toNat, BitVec.getLsbD_of_ge _ _ this]
    · simp [h, Nat.lt_of_not_ge h, show i < 32 * (n + 1) by omega]

theorem testBit_gatherField (W G i : Nat) (buf : List Word) :
    (gatherField W G buf).testBit i =
      (decide (i < 32 * fragments W G) && bitString buf (32 * fieldLo G + i)) :=
  testBit_gatherLoop buf _ _ i

/-- DEC's value is below 2^W, bit by bit (41_codec.md rule R97). -/
theorem getLsbD_decodeField (W G j : Nat) (buf : List Word) (hj : j < 64) :
    (decodeField W G buf).getLsbD j =
      (decide (j < W) && (decide (fieldSh G + j < 32 * fragments W G) &&
        bitString buf (32 * fieldLo G + (fieldSh G + j)))) := by
  simp [decodeField, BitVec.getLsbD_ofNat, hj, testBit_mask, testBit_gatherField, Bool.and_comm,
    -BitVec.getLsbD_eq_getElem]

end Sys2Proof.Machine
end

