-- ==== Sys2Proof/Laws/PerInstr.lean ====
section
/-! SUPPORT. A family of statements about every instruction as syntax: `TableRow`, its code has the fixed bits that
its row of spec/opcode_table.json gives (the row's "fixed": bits hi down to lo, and their value). -/

namespace Sys2Proof

/-- The instruction is a transaction whose selector has the given bits from lo on. -/
def selectorFits (i : Instr) (lo len value : Nat) : Prop :=
  ∃ t, encode i = .transaction t ∧ t.selector.extractLsb' lo len = BitVec.ofNat len value

/-- The instruction is a command word that has the given bits from lo on. -/
def commandFits (i : Instr) (lo len value : Nat) : Prop :=
  ∃ d, encode i = .command d ∧ d.extractLsb' lo len = BitVec.ofNat len value

end Sys2Proof

/-- The fixed bits of the instruction's row of the opcode table. The row of `wr BUF` shows k below 256 only and
extends to every k. -/
def Sys2Proof.Laws.TableRow.Statement (i : Sys2Proof.Instr) : Prop :=
  match i with
  | .rd _ => Sys2Proof.selectorFits i 17 1 0x0
  | .wrCtrl _ => Sys2Proof.selectorFits i 0 18 0x20000
  | .wrStatus _ => Sys2Proof.selectorFits i 0 18 0x20001
  | .wrCmd _ => Sys2Proof.selectorFits i 0 18 0x20002
  | .wrValLo _ => Sys2Proof.selectorFits i 0 18 0x20004
  | .wrValHi _ => Sys2Proof.selectorFits i 0 18 0x20005
  | .cvfeed _ => Sys2Proof.selectorFits i 0 18 0x20010
  | .wrBuf k _ => k.toNat < 256 → Sys2Proof.selectorFits i 8 10 0x201
  | .wrErrcnt _ => Sys2Proof.selectorFits i 0 18 0x20003
  | .wrRes _ _ => Sys2Proof.selectorFits i 1 17 0x10003
  | .wrViolBufsize _ _ => Sys2Proof.selectorFits i 3 15 0x4001
  | .wrCvStatus _ => Sys2Proof.selectorFits i 0 18 0x20011
  | .wrCvSizeRemain _ _ => Sys2Proof.selectorFits i 1 17 0x10009
  | .wrCvAccCounters _ _ => Sys2Proof.selectorFits i 2 16 0x8005
  | .wrReserved018 _ _ => Sys2Proof.selectorFits i 3 15 0x4003
  | .wrReserved020 _ _ => Sys2Proof.selectorFits i 5 13 0x1001
  | .wrReserved040 _ _ => Sys2Proof.selectorFits i 6 12 0x801
  | .wrReserved080 _ _ => Sys2Proof.selectorFits i 7 11 0x401
  | .nop _ => Sys2Proof.commandFits i 28 4 0x0
  | .enc _ _ _ => Sys2Proof.commandFits i 28 4 0x1
  | .dec _ _ _ => Sys2Proof.commandFits i 28 4 0x2
  | .beginWrite _ => Sys2Proof.commandFits i 28 4 0x3
  | .clrbuf _ => Sys2Proof.commandFits i 28 4 0x4
  | .cvrst _ => Sys2Proof.commandFits i 28 4 0x5
  | .illegal67 _ _ => Sys2Proof.commandFits i 29 3 0x3
  | .illegal8F _ _ => Sys2Proof.commandFits i 31 1 0x1

open Sys2Proof

theorem Sys2Proof.Laws.TableRow.rd (off : Offset) : TableRow.Statement (.rd off) :=
  ⟨_, rfl, slice_high 0x0#1 off⟩

theorem Sys2Proof.Laws.TableRow.wrCtrl (d : Word) : TableRow.Statement (.wrCtrl d) :=
  ⟨_, rfl, (slice_whole _).trans rfl⟩

theorem Sys2Proof.Laws.TableRow.wrStatus (d : Word) : TableRow.Statement (.wrStatus d) :=
  ⟨_, rfl, (slice_whole _).trans rfl⟩

theorem Sys2Proof.Laws.TableRow.wrCmd (d : Word) : TableRow.Statement (.wrCmd d) :=
  ⟨_, rfl, (slice_whole _).trans rfl⟩

theorem Sys2Proof.Laws.TableRow.wrValLo (d : Word) : TableRow.Statement (.wrValLo d) :=
  ⟨_, rfl, (slice_whole _).trans rfl⟩

theorem Sys2Proof.Laws.TableRow.wrValHi (d : Word) : TableRow.Statement (.wrValHi d) :=
  ⟨_, rfl, (slice_whole _).trans rfl⟩

theorem Sys2Proof.Laws.TableRow.cvfeed (w : Word) : TableRow.Statement (.cvfeed w) :=
  ⟨_, rfl, (slice_whole _).trans rfl⟩

theorem Sys2Proof.Laws.TableRow.wrBuf (k : BitVec 16) (d : Word) : TableRow.Statement (.wrBuf k d) := by
  intro hk
  refine ⟨_, rfl, ?_⟩
  have hx : (0x100#17 + k.setWidth 17).toNat = 0x100 + k.toNat := by
    rw [BitVec.toNat_add, BitVec.toNat_setWidth]
    simp only [BitVec.toNat_ofNat]
    omega
  have hs : (0x1#1 ++ (0x100#17 + k.setWidth 17)).toNat = 0x20000 + (0x100 + k.toNat) := by
    rw [BitVec.toNat_append, hx, ← Nat.shiftLeft_add_eq_or_of_lt (by omega)]
    rfl
  apply BitVec.eq_of_toNat_eq
  show (((0x1#1 ++ (0x100#17 + k.setWidth 17)).toNat >>> 8) % 2 ^ 10) = 0x201
  rw [hs, Nat.shiftRight_eq_div_pow]
  omega

theorem Sys2Proof.Laws.TableRow.wrErrcnt (d : Word) : TableRow.Statement (.wrErrcnt d) :=
  ⟨_, rfl, (slice_whole _).trans rfl⟩

theorem Sys2Proof.Laws.TableRow.wrRes (o : BitVec 1) (d : Word) : TableRow.Statement (.wrRes o d) :=
  ⟨_, rfl, by
    show (0x1#1 ++ (0x3#16 ++ o)).extractLsb' 1 17 = BitVec.ofNat 17 0x10003
    revert o
    decide⟩

theorem Sys2Proof.Laws.TableRow.wrViolBufsize (o : BitVec 3) (d : Word) : TableRow.Statement (.wrViolBufsize o d) :=
  ⟨_, rfl, by
    show (0x1#1 ++ (0x1#14 ++ o)).extractLsb' 3 15 = BitVec.ofNat 15 0x4001
    revert o
    decide⟩

theorem Sys2Proof.Laws.TableRow.wrCvStatus (d : Word) : TableRow.Statement (.wrCvStatus d) :=
  ⟨_, rfl, (slice_whole _).trans rfl⟩

theorem Sys2Proof.Laws.TableRow.wrCvSizeRemain (o : BitVec 1) (d : Word) : TableRow.Statement (.wrCvSizeRemain o d) :=
  ⟨_, rfl, by
    show (0x1#1 ++ (0x9#16 ++ o)).extractLsb' 1 17 = BitVec.ofNat 17 0x10009
    revert o
    decide⟩

theorem Sys2Proof.Laws.TableRow.wrCvAccCounters (o : BitVec 2) (d : Word) : TableRow.Statement (.wrCvAccCounters o d) :=
  ⟨_, rfl, by
    show (0x1#1 ++ (0x5#15 ++ o)).extractLsb' 2 16 = BitVec.ofNat 16 0x8005
    revert o
    decide⟩

theorem Sys2Proof.Laws.TableRow.wrReserved018 (o : BitVec 3) (d : Word) : TableRow.Statement (.wrReserved018 o d) :=
  ⟨_, rfl, by
    show (0x1#1 ++ (0x3#14 ++ o)).extractLsb' 3 15 = BitVec.ofNat 15 0x4003
    revert o
    decide⟩

theorem Sys2Proof.Laws.TableRow.wrReserved020 (o : BitVec 5) (d : Word) : TableRow.Statement (.wrReserved020 o d) :=
  ⟨_, rfl, by
    show (0x1#1 ++ (0x1#12 ++ o)).extractLsb' 5 13 = BitVec.ofNat 13 0x1001
    revert o
    decide⟩

theorem Sys2Proof.Laws.TableRow.wrReserved040 (o : BitVec 6) (d : Word) : TableRow.Statement (.wrReserved040 o d) :=
  ⟨_, rfl, by
    show (0x1#1 ++ (0x1#11 ++ o)).extractLsb' 6 12 = BitVec.ofNat 12 0x801
    revert o
    decide⟩

theorem Sys2Proof.Laws.TableRow.wrReserved080 (o : BitVec 7) (d : Word) : TableRow.Statement (.wrReserved080 o d) :=
  ⟨_, rfl, by
    show (0x1#1 ++ (0x1#10 ++ o)).extractLsb' 7 11 = BitVec.ofNat 11 0x401
    revert o
    decide⟩

theorem Sys2Proof.Laws.TableRow.nop (ign : BitVec 28) : TableRow.Statement (.nop ign) :=
  ⟨_, rfl, cmdWord_op _ ign⟩

theorem Sys2Proof.Laws.TableRow.enc (w : BitVec 7) (wo : BitVec 16) (bo : BitVec 5) : TableRow.Statement (.enc w wo bo) :=
  ⟨_, rfl, fieldWord_op _ w wo bo⟩

theorem Sys2Proof.Laws.TableRow.dec (w : BitVec 7) (wo : BitVec 16) (bo : BitVec 5) : TableRow.Statement (.dec w wo bo) :=
  ⟨_, rfl, fieldWord_op _ w wo bo⟩

theorem Sys2Proof.Laws.TableRow.beginWrite (ign : BitVec 28) : TableRow.Statement (.beginWrite ign) :=
  ⟨_, rfl, cmdWord_op _ ign⟩

theorem Sys2Proof.Laws.TableRow.clrbuf (ign : BitVec 28) : TableRow.Statement (.clrbuf ign) :=
  ⟨_, rfl, cmdWord_op _ ign⟩

theorem Sys2Proof.Laws.TableRow.cvrst (ign : BitVec 28) : TableRow.Statement (.cvrst ign) :=
  ⟨_, rfl, cmdWord_op _ ign⟩

theorem Sys2Proof.Laws.TableRow.illegal67 (o : BitVec 1) (ign : BitVec 28) : TableRow.Statement (.illegal67 o ign) :=
  ⟨_, rfl, (cmdWord_top _ ign).trans (slice_above 0x3#3 o 0 3)⟩

theorem Sys2Proof.Laws.TableRow.illegal8F (o : BitVec 3) (ign : BitVec 28) : TableRow.Statement (.illegal8F o ign) :=
  ⟨_, rfl, (slice_above (0x1#1 ++ o) ign 3 1).trans (slice_above 0x1#1 o 0 1)⟩
end

