-- ==== Sys2Proof/Laws/Validator.lean ====
section
/-! SUPPORT. The CRC over a growing sequence, and what CVFEED does in each state of the framing. -/

namespace Sys2Proof.Machine

/-! ## The CRC function -/

@[simp] theorem crcAcc_nil (p : Params) : crcAcc p [] = p.crcInit := rfl

theorem crcAcc_snoc (p : Params) (ws : List Word) (w : Word) :
    crcAcc p (ws ++ [w]) = crcWord p (crcAcc p ws) w := by
  simp [crcAcc]

/-! ## CVFEED, by state -/

theorem cvFeed_idle {v : Validator} (h : v.state = .idle) (p : Params) (w : Word) :
    cvFeed p w v = feedIdle p w v := by
  simp [cvFeed, h]

theorem cvFeed_hdr1 {v : Validator} (h : v.state = .hdr1) (p : Params) (w : Word) :
    cvFeed p w v = feedHdr1 p w v := by
  simp [cvFeed, h]

theorem cvFeed_hcrc {v : Validator} (h : v.state = .hcrc) (p : Params) (w : Word) :
    cvFeed p w v = feedHcrc p w v := by
  simp [cvFeed, h]

theorem cvFeed_body {v : Validator} (h : v.state = .body) (p : Params) (w : Word) :
    cvFeed p w v = feedBody p w v := by
  simp [cvFeed, h]

theorem cvFeed_bcrc {v : Validator} (h : v.state = .bcrc) (p : Params) (w : Word) :
    cvFeed p w v = feedBcrc p w v := by
  simp [cvFeed, h]

/-- CVRST gives the reset validator, whatever was held (42_crc_validator.md rule R111). -/
theorem cvReset_eq_reset (p : Params) (v : Validator) : cvReset p v = Validator.reset p := rfl

end Sys2Proof.Machine
end

