-- ==== Sys2Proof/Laws/Step.lean ====
section
/-! SUPPORT. What a step can do, said once: a write to CMD is the command it stands for, every other instruction that
answers a next state has one of the effects of `Effect`, and a step is one event. -/

namespace Sys2Proof.Machine

/-! ## The step -/

theorem step_of_access {s : State} {t : Txn} {rest : List Event} (h : s.pending = .access t :: rest) :
    step s = access t { s with pending := rest } := by
  simp only [step, h, perform]

theorem step_of_reset {s : State} {rest : List Event} (h : s.pending = .reset :: rest) :
    step s = .next (blockReset { s with pending := rest }) := by
  simp only [step, h, perform]

/-! ## A write to CMD -/

/-- The meaning of a write to CMD is the meaning of the command it stands for. -/
theorem execWrCmd_eq_exec_decodeCmd (d : Word) (s : State) : execWrCmd d s = exec (decodeCmd d) s := by
  simp only [execWrCmd, decodeCmd, caseCmd]
  split_ifs <;> rfl

/-- No command word stands for a transaction of another kind. -/
theorem decodeCmd_is_command (d : Word) :
    (∀ off, decodeCmd d ≠ .rd off) ∧ (∀ e, decodeCmd d ≠ .wrStatus e) ∧ (∀ e, decodeCmd d ≠ .wrCmd e) := by
  refine ⟨?_, ?_, ?_⟩ <;> intro e <;> simp only [decodeCmd, caseCmd] <;> split_ifs <;> simp

/-- The instructions that can be rejected. -/
abbrev CanBeRejected (i : Instr) : Prop :=
  (∃ w wo bo, i = .enc w wo bo) ∨ (∃ w wo bo, i = .dec w wo bo) ∨ (∃ o g, i = .illegal67 o g) ∨
    ∃ o g, i = .illegal8F o g

/-- A command word that stands for a command that can be rejected has OP 1, 2 or 6 to 15. -/
theorem op_of_decodeCmd_rejectable {d : Word} (h : CanBeRejected (decodeCmd d)) :
    d.extractLsb' 28 4 = 0x1#4 ∨ d.extractLsb' 28 4 = 0x2#4 ∨ 6 ≤ (d.extractLsb' 28 4).toNat := by
  have reserved : ∀ op : BitVec 4, op ≠ 0#4 → op ≠ 3#4 → op ≠ 4#4 → op ≠ 5#4 →
      op = 1#4 ∨ op = 2#4 ∨ 6 ≤ op.toNat := by decide
  refine reserved _ ?_ ?_ ?_ ?_ <;> intro e <;> simp [decodeCmd, caseCmd, e, CanBeRejected] at h

/-! ## The instructions -/

/-- Every effect an instruction other than a write to CMD can have. -/
inductive Effect (s : State) : Instr → State → Prop where
  | read (off : Offset) : Effect s (.rd off) (returnWord (readReg s off) s)
  | ctrl (d : Word) : Effect s (.wrCtrl d) { s with codec := { s.codec with rchkEn := d.getLsbD 0 } }
  | acknowledge (d : Word) (h : d.getLsbD 0 = true) : Effect s (.wrStatus d) { s with codec := clearErrors s.codec }
  | valLo (d : Word) :
    Effect s (.wrValLo d) { s with codec := { s.codec with val := s.codec.val.extractLsb' 32 32 ++ d } }
  | valHi (d : Word) :
    Effect s (.wrValHi d) { s with codec := { s.codec with val := d ++ s.codec.val.extractLsb' 0 32 } }
  | buf (k : BitVec 16) (d : Word) (h : k.toNat < s.params.nBufWords) :
    Effect s (.wrBuf k d) { s with codec := { s.codec with buf := writeBuf s.codec.buf k.toNat d } }
  | feed (w : Word) : Effect s (.cvfeed w) { s with cv := cvFeed s.params w s.cv }
  | unchanged (i : Instr) (h : ∀ off, i ≠ .rd off) : Effect s i s
  | rejected (i : Instr) (code : ErrCode) (h : CanBeRejected i) (hc : code ≠ .none) : Effect s i (cmdError code s)
  | enc (w : BitVec 7) (wo : BitVec 16) (bo : BitVec 5) (h : LegalField s.params.nBufWords w wo bo) :
    Effect s (.enc w wo bo) { s with codec := encCodec w.toNat (globalOffset wo bo) s.codec }
  | dec (w : BitVec 7) (wo : BitVec 16) (bo : BitVec 5) (h : LegalField s.params.nBufWords w wo bo) :
    Effect s (.dec w wo bo) { s with codec := decCodec w.toNat (globalOffset wo bo) s.codec }
  | begin (g : BitVec 28) : Effect s (.beginWrite g) { s with codec := { s.codec with viol := 0#32 } }
  | clrbuf (g : BitVec 28) : Effect s (.clrbuf g) { s with codec := { s.codec with buf := clearBuf s.params } }
  | cvrst (g : BitVec 28) : Effect s (.cvrst g) { s with cv := Validator.reset s.params }

theorem checkField_ne_some_none (n W G : Nat) : checkField n W G ≠ some .none := by
  unfold checkField
  split_ifs <;> simp

theorem execEnc_effect (w : BitVec 7) (wo : BitVec 16) (bo : BitVec 5) (s : State) :
    ∃ t, execEnc w wo bo s = .next t ∧ Effect s (.enc w wo bo) t := by
  unfold execEnc
  cases h : checkField s.params.nBufWords (fieldWidth w) (globalOffset wo bo) with
  | none => exact ⟨_, rfl, .enc w wo bo ((checkField_none_iff _ _ _).1 h)⟩
  | some c => exact ⟨_, rfl, .rejected _ c (by simp [CanBeRejected]) (fun e => checkField_ne_some_none _ _ _ (e ▸ h))⟩

theorem execDec_effect (w : BitVec 7) (wo : BitVec 16) (bo : BitVec 5) (s : State) :
    ∃ t, execDec w wo bo s = .next t ∧ Effect s (.dec w wo bo) t := by
  unfold execDec
  cases h : checkField s.params.nBufWords (fieldWidth w) (globalOffset wo bo) with
  | none => exact ⟨_, rfl, .dec w wo bo ((checkField_none_iff _ _ _).1 h)⟩
  | some c => exact ⟨_, rfl, .rejected _ c (by simp [CanBeRejected]) (fun e => checkField_ne_some_none _ _ _ (e ▸ h))⟩

/-- An instruction other than a write to CMD that answers a next state has one of the effects. -/
theorem exec_effect {i : Instr} {s t : State} (hi : ∀ d, i ≠ .wrCmd d) (h : exec i s = .next t) : Effect s i t := by
  cases i with
  | wrCmd d => exact absurd rfl (hi d)
  | rd off =>
    simp only [exec, execRd] at h
    split at h
    · cases h; exact .read off
    · cases h
  | wrCtrl d => cases h; exact .ctrl d
  | wrStatus d =>
    cases hd : d.getLsbD 0 with
    | true => simp only [exec, execWrStatus, hd] at h; cases h; exact .acknowledge d hd
    | false => simp only [exec, execWrStatus, hd] at h; cases h; exact .unchanged _ (by simp)
  | wrValLo d => cases h; exact .valLo d
  | wrValHi d => cases h; exact .valHi d
  | cvfeed w => cases h; exact .feed w
  | wrBuf k d =>
    simp only [exec, execWrBuf] at h
    split at h
    · cases h; exact .buf k d ‹_›
    · cases h
  | enc w wo bo =>
    obtain ⟨u, hu, e⟩ := execEnc_effect w wo bo s
    cases hu.symm.trans h
    exact e
  | dec w wo bo =>
    obtain ⟨u, hu, e⟩ := execDec_effect w wo bo s
    cases hu.symm.trans h
    exact e
  | beginWrite g => cases h; exact .begin g
  | clrbuf g => cases h; exact .clrbuf g
  | cvrst g => cases h; exact .cvrst g
  | illegal67 o g => cases h; exact .rejected _ _ (by simp [CanBeRejected]) (by simp)
  | illegal8F o g => cases h; exact .rejected _ _ (by simp [CanBeRejected]) (by simp)
  | _ => cases h; exact .unchanged _ (by simp)

end Sys2Proof.Machine
end

