-- ==== Sys2Proof/Tests/Slice0.lean ====
section
/-! SUPPORT. The model's own tests: the checks of WellFormed refuse ill-formed terms, every constructor is decoded from
a word written out from the spec's encoding, one or two single steps per instruction with the results of
spec/95_test_vectors.md, and for every statement with hypotheses a concrete witness of them. -/

namespace Sys2Proof.Tests
open Sys2Proof Sys2Proof.Machine

/-! ## Helpers -/

/-- The next state of an instruction, if it has one. -/
def nextOf (i : Instr) (s : State) : Option State :=
  match exec i s with
  | .next t => some t
  | .fault _ => none
  | .refused _ => none

/-- The reset state of the default instance with another codec. -/
def withCodec (f : Codec → Codec) : State := { State.reset with codec := f State.reset.codec }

/-- The reset state of the default instance with another validator. -/
def withCv (f : Validator → Validator) : State := { State.reset with cv := f State.reset.cv }

/-- A buffer of sixteen words that begins with three given words. -/
def buf3 (a b c : Word) : List Word := [a, b, c] ++ List.replicate 13 0#32

/-- The default parameters with the other byte order. -/
def beParams : Params := { Params.default with crcWordOrder := .beBytes }

/-! ## Ill-formed terms are refused (rules R7, R65, R75, R84) -/

theorem test_wf_refuses_read_outside : (Instr.rd 0x110#17).wf Params.default = false := by decide
theorem test_wf_admits_last_read : (Instr.rd 0x10F#17).wf Params.default = true := by decide
theorem test_wf_refuses_buf_outside : (Instr.wrBuf 16#16 0#32).wf Params.default = false := by decide
theorem test_wf_admits_last_buf : (Instr.wrBuf 15#16 0#32).wf Params.default = true := by decide
theorem test_legalWidth : legalWidth 0#7 = false ∧ legalWidth 1#7 = true ∧ legalWidth 64#7 = true ∧
    legalWidth 65#7 = false ∧ legalWidth 127#7 = false := by decide
theorem test_params_wf : { Params.default with nBufWords := 2 }.wf = false ∧
    { Params.default with nBufWords := 3 }.wf = true ∧ { Params.default with nBufWords := 65536 }.wf = true ∧
    { Params.default with nBufWords := 65537 }.wf = false := by decide
theorem test_memory_wf : Memory.wf Params.default (List.replicate 15 0#32) = false ∧
    Memory.wf Params.default (buf3 1#32 2#32 3#32) = true := by decide

/-! ## Decoding: a word for every row, from the rows of spec/opcode_table.json and rules R63 and R64 -/

theorem test_decode_rd : decodeTableWord 24 0x00009 = some (.rd 0x009#17) := by decide
theorem test_decode_wrCtrl : decodeTableWord 24 0x20000 = some (.wrCtrl 0#32) := by decide
theorem test_decode_wrStatus : decodeTableWord 24 0x20001 = some (.wrStatus 0#32) := by decide
theorem test_decode_wrCmd : decodeTableWord 24 0x20002 = some (.wrCmd 0#32) := by decide
theorem test_decode_wrValLo : decodeTableWord 24 0x20004 = some (.wrValLo 0#32) := by decide
theorem test_decode_wrValHi : decodeTableWord 24 0x20005 = some (.wrValHi 0#32) := by decide
theorem test_decode_cvfeed : decodeTableWord 24 0x20010 = some (.cvfeed 0#32) := by decide
theorem test_decode_wrBuf : decodeTableWord 24 0x2010F = some (.wrBuf 15#16 0#32) := by decide
theorem test_decode_wrErrcnt : decodeTableWord 24 0x20003 = some (.wrErrcnt 0#32) := by decide
theorem test_decode_wrRes : decodeTableWord 24 0x20007 = some (.wrRes 1#1 0#32) := by decide
theorem test_decode_wrViolBufsize : decodeTableWord 24 0x2000A = some (.wrViolBufsize 2#3 0#32) := by decide
theorem test_decode_wrCvStatus : decodeTableWord 24 0x20011 = some (.wrCvStatus 0#32) := by decide
theorem test_decode_wrCvSizeRemain : decodeTableWord 24 0x20013 = some (.wrCvSizeRemain 1#1 0#32) := by decide
theorem test_decode_wrCvAccCounters : decodeTableWord 24 0x20016 = some (.wrCvAccCounters 2#2 0#32) := by decide
theorem test_decode_wrReserved018 : decodeTableWord 24 0x2001D = some (.wrReserved018 5#3 0#32) := by decide
theorem test_decode_wrReserved020 : decodeTableWord 24 0x2003F = some (.wrReserved020 31#5 0#32) := by decide
theorem test_decode_wrReserved040 : decodeTableWord 24 0x20041 = some (.wrReserved040 1#6 0#32) := by decide
theorem test_decode_wrReserved080 : decodeTableWord 24 0x200FF = some (.wrReserved080 127#7 0#32) := by decide
theorem test_decode_nop : decodeTableWord 32 0x0FFFFFFF = some (.nop 0xFFFFFFF#28) := by decide
theorem test_decode_enc : decodeTableWord 32 0x17A00004 = some (.enc 61#7 0#16 4#5) ∧
    decodeTableWord 32 0x142001FF = some (.enc 33#7 15#16 31#5) := by decide
theorem test_decode_dec : decodeTableWord 32 0x21800034 = some (.dec 12#7 1#16 20#5) ∧
    decodeTableWord 32 0x242001E0 = some (.dec 33#7 15#16 0#5) := by decide
theorem test_decode_begin : decodeTableWord 32 0x3ABCDEF0 = some (.beginWrite 0xABCDEF0#28) := by decide
theorem test_decode_clrbuf : decodeTableWord 32 0x40000000 = some (.clrbuf 0#28) := by decide
theorem test_decode_cvrst : decodeTableWord 32 0x50000000 = some (.cvrst 0#28) := by decide
theorem test_decode_illegal67 : decodeTableWord 32 0x6FFFFFFF = some (.illegal67 0#1 0xFFFFFFF#28) ∧
    decodeTableWord 32 0x70000000 = some (.illegal67 1#1 0#28) := by decide
theorem test_decode_illegal8F : decodeTableWord 32 0xF0000000 = some (.illegal8F 7#3 0#28) ∧
    decodeTableWord 32 0x80000001 = some (.illegal8F 0#3 1#28) := by decide
theorem test_decode_outside_window : decodeTableWord 24 0x00110 = none ∧ decodeTableWord 24 0x20110 = none := by
  decide
/-- Rule R78: a descriptor with W outside 1 to 64 prints as a write to CMD. -/
theorem test_disassemble : disassemble 0x21800034#32 = .dec 12 1 20 ∧
    disassemble 0x1FE00000#32 = .wr .cmd 0x1FE00000#32 ∧ disassemble 0x3ABCDEF0#32 = .beginWrite := by decide
/-- Rule R76. -/
theorem test_expand : expand (.encg 64 449) = [.enc 64 14 1] ∧
    expand (.ldbuf 1#16 [7#32, 8#32]) = [.wr (.buf 1#16) 7#32, .wr (.buf 2#16) 8#32] ∧
    expand .rdres = [.rd .resLo, .rd .resHi] := by decide

/-! ## Single steps: host access (table of section 2.2 of the vectors) -/

/-- H1 and H2. -/
theorem test_rd : (nextOf (.rd 0x009#17) State.reset).map (·.returned) = some [0x00000010#32] ∧
    (nextOf (.rd 0x014#17) State.reset).map (·.returned) = some [0xFFFFFFFF#32] := by decide
/-- H12. -/
theorem test_rd_outside : exec (.rd 0x110#17) State.reset = .refused .outsideWindow := by rfl
/-- H5 and H6. -/
theorem test_wrCtrl : (nextOf (.wrCtrl 0xFFFFFFFE#32) State.reset).map (readReg · 0x000#17) = some 0x00000000#32 ∧
    (nextOf (.wrCtrl 0x00000003#32) State.reset).map (readReg · 0x000#17) = some 0x00000001#32 := by decide

/-- A state whose STATUS is 5 and whose ERRCNT is 3. -/
def inError : State := withCodec fun c => { c with err := true, errcode := .badWidth, errcnt := 3#32 }

/-- H7. -/
theorem test_wrStatus_keeps : nextOf (.wrStatus 0x00000000#32) inError = some inError := by decide
/-- H8. -/
theorem test_wrStatus_clears :
    (nextOf (.wrStatus 0xFFFFFFFF#32) inError).map (fun t => (readReg t 0x001#17, readReg t 0x003#17)) =
      some (0#32, 0#32) := by decide
/-- Table E3, row 1, and B3. -/
theorem test_wrCmd :
    (nextOf (.wrCmd 0x10000000#32) State.reset).map (fun t => (readReg t 0x001#17, readReg t 0x003#17)) =
      some (0x00000005#32, 1#32) ∧
    (nextOf (.wrCmd 0x3ABCDEF0#32) { inError with codec := { inError.codec with viol := 2#32 } }).map
      (fun t => (readReg t 0x008#17, readReg t 0x001#17)) = some (0#32, 0x00000005#32) := by decide
/-- Rule R80: VAL_HI is kept. -/
theorem test_wrValLo : (nextOf (.wrValLo 0x12345678#32) (withCodec fun c =>
    { c with val := 0x1ABCDEF0FFFFFFFF#64 })).map (·.codec.val) = some 0x1ABCDEF012345678#64 := by decide
/-- H4. -/
theorem test_wrValHi : (nextOf (.wrValHi 0x00000001#32) (withCodec fun c =>
    { c with val := 0x00000000FFFFFFFF#64 })).map (·.codec.val) = some 0x00000001FFFFFFFF#64 := by decide
/-- H11. -/
theorem test_wrBuf : (nextOf (.wrBuf 15#16 0xDEADBEEF#32) State.reset).map
    (fun t => (readReg t 0x10F#17, readReg t 0x10E#17)) = some (0xDEADBEEF#32, 0#32) := by decide
/-- H12. -/
theorem test_wrBuf_outside : exec (.wrBuf 16#16 0#32) State.reset = .refused .outsideWindow := by rfl
/-- H9, H10 and H13. -/
theorem test_ignored_writes :
    (nextOf (.wrViolBufsize 0#3 0#32) (withCodec fun c => { c with viol := 2#32 })).map (·.codec.viol) = some 2#32 ∧
    (nextOf (.wrRes 0#1 0#32) (withCodec fun c => { c with res := 0x1234#64 })).map (·.codec.res) = some 0x1234#64 ∧
    nextOf (.wrCvStatus 0xFFFFFFFF#32) State.reset = some State.reset := by decide

/-! ## Single steps: the codec (tables E1 to E3 and B of the vectors) -/

/-- B1. -/
theorem test_nop : nextOf (.nop 0xFFFFFFF#28) inError = some inError := by decide
/-- Table E1, row 2. -/
theorem test_enc_three_words : (nextOf (.enc 61#7 0#16 4#5) (withCodec fun c =>
    { c with val := 0x1ABCDEF012345678#64 })).map (·.codec.buf) =
      some (buf3 0x23456780#32 0xABCDEF01#32 0x00000001#32) := by decide
/-- Table E1, row 15: written despite the violation. -/
theorem test_enc_violation : (nextOf (.enc 5#7 0#16 3#5) (withCodec fun c =>
    { c with val := 0x3F#64, rchkEn := true })).map (fun t => (t.codec.buf, t.codec.viol)) =
      some (buf3 0x000000F8#32 0#32 0#32, 1#32) := by decide
/-- Table E2, row 2. -/
theorem test_dec_three_words : (nextOf (.dec 64#7 0#16 16#5) (withCodec fun c =>
    { c with buf := buf3 0x12345678#32 0x9ABCDEF0#32 0x0F0F0F0F#32 })).map (·.codec.res) =
      some 0x0F0F9ABCDEF01234#64 := by decide
/-- Table E3, row 12. -/
theorem test_dec_rejected : (nextOf (.dec 0#7 0#16 0#5) (withCodec fun c => { c with res := 0x1234#64 })).map
    (fun t => (t.codec.res, readReg t 0x001#17)) = some (0x1234#64, 0x00000005#32) := by decide
/-- B2. -/
theorem test_begin : (nextOf (.beginWrite 0#28) (withCodec fun c =>
    { c with viol := 2#32, buf := buf3 0xF8#32 0#32 0#32 })).map (fun t => (t.codec.viol, readBuf t.codec.buf 0)) =
      some (0#32, 0xF8#32) := by decide
/-- B4. -/
theorem test_clrbuf : (nextOf (.clrbuf 0#28) (withCodec fun c =>
    { c with buf := List.replicate 16 0xFFFFFFFF#32, res := 7#64, val := 9#64 })).map (·.codec) =
      some { State.reset.codec with res := 7#64, val := 9#64 } := by decide
/-- Table E3, rows 10 and 11. -/
theorem test_illegal67 : (nextOf (.illegal67 0#1 0xFFFFFFF#28) State.reset).map
    (fun t => (readReg t 0x001#17, readReg t 0x003#17)) = some (0x00000003#32, 1#32) := by decide
/-- Rules R127 and R10: the first code is kept, the counter saturates. -/
theorem test_illegal8F : (nextOf (.illegal8F 7#3 0#28) (withCodec fun c =>
    { c with err := true, errcode := .badWidth, errcnt := 0xFFFFFFFF#32 })).map
    (fun t => (readReg t 0x001#17, readReg t 0x003#17)) = some (0x00000005#32, 0xFFFFFFFF#32) := by decide

/-! ## Single steps: the validator (section 2.6 of the vectors), and the CRC function (section 2.5) -/

/-- V1, first word. -/
theorem test_cvfeed_idle : (nextOf (.cvfeed 0x06000000#32) State.reset).map
    (fun t => (readReg t 0x011#17, readReg t 0x014#17)) = some (0x00000601#32, 0x37D885D6#32) := by decide +kernel
/-- V1, last word. -/
theorem test_cvfeed_bcrc : (nextOf (.cvfeed 0x86829DEB#32) (withCv fun v =>
    { v with state := .bcrc, hdrOk := true, blockid := 6#8, size := 2#24, acc := 0x797D6214#32 })).map
    (fun t => (readReg t 0x011#17, readReg t 0x015#17)) = some (0x00000628#32, 1#32) := by decide +kernel
/-- V8. -/
theorem test_cvrst : nextOf (.cvrst 0#28) (withCv fun v =>
    { v with state := .body, hdrOk := true, blockid := 6#8, size := 2#24, remain := 2#24, blkcnt := 4#32 }) =
      some State.reset := by decide
/-- The row 06000000, 00000002, in both byte orders. -/
theorem test_crcWords : crcWords Params.default [0x06000000#32, 0x00000002#32] = 0x406BE242#32 ∧
    crcWords beParams [0x06000000#32, 0x00000002#32] = 0x4D43B7C2#32 := by decide +kernel

/-! ## The step and the placing of a word -/

theorem test_step_reset_idle : step State.reset = .next State.reset := by rfl
/-- A command word reaches the block through CMD. -/
theorem test_withFetchWord_command :
    (State.reset.withFetchWord 32 0x60000000).pending = [.access (.write 0x002#17 0x60000000#32)] := by decide
theorem test_withFetchWord_transaction :
    (State.reset.withFetchWord 24 0x00009).pending = [.access (.read 0x009#17)] := by decide
theorem test_step_runs_placed_word :
    step (State.reset.withFetchWord 24 0x00009) = .next { State.reset with returned := [0x00000010#32] } := by rfl

/-! ## Witnesses of the statements' hypotheses -/

theorem witness_DecodeOfEncodeIsTheInstruction : Params.default.wf = true ∧
    (Instr.enc 64#7 65535#16 31#5).wf Params.default = true ∧ (Instr.rd 0x10F#17).wf Params.default = true ∧
    (Instr.wrBuf 15#16 0xFFFFFFFF#32).wf Params.default = true := by decide
theorem witness_EncodeOfDecodeIsTheCode : Params.default.wf = true ∧
    decode Params.default (.command 0x181FFFFF#32) = .ok (.enc 64#7 65535#16 31#5) ∧
    decode Params.default (.transaction (.write 0x10F#17 1#32)) = .ok (.wrBuf 15#16 1#32) := by
  refine ⟨by decide, by rfl, by rfl⟩
theorem witness_OffsetSelectsTheOperation :
    (0x10F#17).toNat < 0x100 + Params.default.nBufWords ∧
    ((0#16).toNat < Params.default.nBufWords ∧ (0x100#17).toNat = 0x100 + (0#16).toNat) ∧
    ((15#16).toNat < Params.default.nBufWords ∧ (0x10F#17).toNat = 0x100 + (15#16).toNat) ∧
    (0x003#17).toNat = 0x003 ∧ (0x006 ≤ (0x006#17).toNat ∧ (0x00F#17).toNat ≤ 0x00F) ∧
    (0x011 ≤ (0x011#17).toNat ∧ (0x0FF#17).toNat ≤ 0x0FF) ∧
    decode Params.default (.transaction (.read 0x110#17)) = .error .outsideWindow ∧
    decode Params.default (.transaction (.write 0x1FFFF#17 0#32)) = .error .outsideWindow := by
  refine ⟨by decide, by decide, by decide, by decide, by decide, by decide, by rfl, by rfl⟩
theorem witness_OpSelectsTheCommand :
    (0x0FFFFFFF#32).extractLsb' 28 4 = 0x0#4 ∧ (0x1FFFFFFF#32).extractLsb' 28 4 = 0x1#4 ∧
    (0x2FFFFFFF#32).extractLsb' 28 4 = 0x2#4 ∧ (0x3FFFFFFF#32).extractLsb' 28 4 = 0x3#4 ∧
    (0x4FFFFFFF#32).extractLsb' 28 4 = 0x4#4 ∧ (0x5FFFFFFF#32).extractLsb' 28 4 = 0x5#4 ∧
    6 ≤ ((0x60000000#32).extractLsb' 28 4).toNat ∧ ((0x7FFFFFFF#32).extractLsb' 28 4).toNat ≤ 7 ∧
    8 ≤ ((0x80000000#32).extractLsb' 28 4).toNat ∧ ((0xFFFFFFFF#32).extractLsb' 28 4).toNat = 15 := by decide
theorem witness_AssembledFieldCommandsDecode :
    (1 ≤ 64 ∧ 64 ≤ 64 ∧ 65535 ≤ 65535 ∧ 31 ≤ 31) ∧ ¬(1 ≤ 0 ∧ 0 ≤ 64 ∧ 0 ≤ 65535 ∧ 0 ≤ 31) ∧
    ¬(1 ≤ 65 ∧ 65 ≤ 64 ∧ 0 ≤ 65535 ∧ 0 ≤ 31) ∧ ¬(1 ≤ 1 ∧ 1 ≤ 64 ∧ 65536 ≤ 65535 ∧ 0 ≤ 31) ∧
    ¬(1 ≤ 1 ∧ 1 ≤ 64 ∧ 0 ≤ 65535 ∧ 32 ≤ 31) := by decide
theorem witness_DisassemblyInvertsAssembly :
    (∀ r, Asm.enc 64 65535 31 ≠ .rd r) ∧ (∀ r x, Asm.enc 64 65535 31 ≠ .wr r x) ∧
    (∀ x, Asm.enc 64 65535 31 ≠ .cvfeed x) ∧
    assemble (.enc 64 65535 31) = some (.write 0x002#17 0x181FFFFF#32) := by
  refine ⟨by simp, by simp, by simp, by decide⟩

/-- A word for each OP of rule R78, the widths at their boundary values; a canonical and a noncanonical NOP. -/
theorem witness_DisassemblyInvertsAssembly_words :
    (0x0FFFFFFF#32).extractLsb' 28 4 = 0x0#4 ∧ (0x3ABCDEF0#32).extractLsb' 28 4 = 0x3#4 ∧
    (0x4FFFFFFF#32).extractLsb' 28 4 = 0x4#4 ∧ (0x5FFFFFFF#32).extractLsb' 28 4 = 0x5#4 ∧
    ((0x10200000#32).extractLsb' 28 4 = 0x1#4 ∧ ((0x10200000#32).extractLsb' 21 7).toNat = 1) ∧
    ((0x10000000#32).extractLsb' 28 4 = 0x1#4 ∧ ((0x10000000#32).extractLsb' 21 7).toNat = 0) ∧
    ((0x28000000#32).extractLsb' 28 4 = 0x2#4 ∧ ((0x28000000#32).extractLsb' 21 7).toNat = 64) ∧
    ((0x28200000#32).extractLsb' 28 4 = 0x2#4 ∧ ((0x28200000#32).extractLsb' 21 7).toNat = 65) ∧
    6 ≤ ((0x60000000#32).extractLsb' 28 4).toNat ∧ 6 ≤ ((0xFFFFFFFF#32).extractLsb' 28 4).toNat ∧
    ((0x50000000#32).extractLsb' 28 4 = 0x5#4 ∧ (0x50000000#32).extractLsb' 0 28 = 0#28) ∧
    ¬(0x0FFFFFFF#32).extractLsb' 0 28 = 0#28 := by decide

/-- A state with a read of the last word of the window, and then an access just above it, pending. -/
def pendingReads : State :=
  { State.reset with pending := [.access (.read 0x10F#17), .access (.read 0x110#17)] }

theorem witness_StepRunsTheDecodedInstruction_transaction :
    pendingReads.pending = .access (Code.transaction (.read 0x10F#17)).txn :: [.access (.read 0x110#17)] ∧
    decode pendingReads.params (.transaction (.read 0x10F#17)) = .ok (.rd 0x10F#17) := by
  refine ⟨by decide, by rfl⟩
theorem witness_StepRunsTheDecodedInstruction_command :
    (State.reset.withFetchWord 32 0x17A00004).pending = .access (Code.command 0x17A00004#32).txn :: [] ∧
    decode (State.reset.withFetchWord 32 0x17A00004).params (.command 0x17A00004#32) = .ok (.enc 61#7 0#16 4#5) := by
  refine ⟨by decide, by rfl⟩
theorem witness_StepWithNothingPendingKeepsState : State.reset.pending = [] := by decide

/-- A state with one pending access. -/
def pendingOne (t : Txn) : State := { State.reset with pending := [.access t] }

theorem witness_OnlyAccessesOutsideWindowAreRefused :
    (pendingOne (.read 0x10F#17)).pending = .access (.read 0x10F#17) :: [] ∧
    (0x10F#17).toNat < 0x100 + State.reset.params.nBufWords ∧
    (pendingOne (.write 0x110#17 0#32)).pending = .access (.write 0x110#17 0#32) :: [] ∧
    0x100 + State.reset.params.nBufWords ≤ (0x110#17).toNat := by decide
theorem witness_OnlyAccessesOutsideWindowAreRefused_command :
    (pendingOne (.write 0x002#17 0x60000000#32)).pending = .access (.write 0x002#17 0x60000000#32) :: [] ∧
    6 ≤ ((0x60000000#32).extractLsb' 28 4).toNat ∧ (0x18200000#32).extractLsb' 28 4 = 0x1#4 ∧
    ¬LegalField State.reset.params.nBufWords ((0x18200000#32).extractLsb' 21 7) ((0x18200000#32).extractLsb' 5 16)
      ((0x18200000#32).extractLsb' 0 5) ∧
    (0x242001E0#32).extractLsb' 28 4 = 0x2#4 ∧
    ¬LegalField State.reset.params.nBufWords ((0x242001E0#32).extractLsb' 21 7) ((0x242001E0#32).extractLsb' 5 16)
      ((0x242001E0#32).extractLsb' 0 5) := by decide
theorem witness_AccessOutsideWindowIsRefused :
    0x100 + State.reset.params.nBufWords ≤ (0x110#17).toNat ∧
    State.reset.params.nBufWords ≤ (16#16).toNat ∧
    (pendingOne (.read 0x110#17)).pending = .access (.read 0x110#17) :: [] ∧
    (pendingOne (.write 0x110#17 7#32)).pending = .access (.write 0x110#17 7#32) :: [] := by decide
theorem witness_WindowStartsAtCodecBase : Params.default.wf = true ∧
    (Config.codecBase ≤ Config.codecBase ∧ Config.codecBase < Config.codecBase + 0x100 + Params.default.nBufWords) ∧
    (Config.codecBase ≤ Config.codecBase + 0x10F ∧
      Config.codecBase + 0x10F < Config.codecBase + 0x100 + Params.default.nBufWords) ∧
    ¬(Config.codecBase ≤ Config.codecBase + 0x110 ∧
      Config.codecBase + 0x110 < Config.codecBase + 0x100 + Params.default.nBufWords) := by
  simp only [Params.default, Params.wf]
  refine ⟨by decide, by omega, by omega, by omega⟩
theorem witness_ReadReturnsTheRegister :
    (0x10F#17).toNat < 0x100 + State.reset.params.nBufWords ∧
    (0x002#17).toNat < 0x100 + State.reset.params.nBufWords ∧
    (0x010#17).toNat < 0x100 + State.reset.params.nBufWords ∧
    (0x00A ≤ (0x00A#17).toNat ∧ (0x00F#17).toNat ≤ 0x00F) ∧
    (0x018 ≤ (0x018#17).toNat ∧ (0x0FF#17).toNat ≤ 0x0FF) := by decide
theorem witness_ReadFunctionByOffset :
    15 < State.reset.params.nBufWords ∧ (0x10F#17).toNat = 0x100 + 15 ∧
    0x100 + State.reset.params.nBufWords ≤ (0x110#17).toNat := by decide
theorem witness_WriteOfDataOrControlRegister :
    Memory.wf State.reset.params State.reset.codec.buf = true ∧ (15#16).toNat < State.reset.params.nBufWords := by
  decide
theorem witness_DataAndControlWritesAreIdempotent :
    exec (.wrBuf 0#16 5#32) State.reset = .next { State.reset with codec :=
      { State.reset.codec with buf := buf3 5#32 0#32 0#32 } } ∧
    exec (.wrStatus 1#32) State.reset = .next State.reset ∧ (1#32).getLsbD 0 = true ∧
    exec (.wrCtrl 0#32) State.reset = .next State.reset := by
  refine ⟨by rfl, by rfl, by decide, by rfl⟩
theorem witness_ReservedOpIsRejected :
    6 ≤ ((0x60000000#32).extractLsb' 28 4).toNat ∧ 6 ≤ ((0xFFFFFFFF#32).extractLsb' 28 4).toNat := by decide
theorem witness_RaisingAnErrorHasExactlyThisEffect :
    checkField State.reset.params.nBufWords (0#7).toNat (globalOffset 0#16 0#5) = some .badWidth ∧
    checkField State.reset.params.nBufWords (127#7).toNat (globalOffset 0#16 0#5) = some .badWidth ∧
    checkField State.reset.params.nBufWords (64#7).toNat (globalOffset 14#16 1#5) = some .outOfBuffer := by decide
theorem witness_BadDescriptorIsRejected :
    ((0#7).toNat = 0 ∨ 64 < (0#7).toNat) ∧ ((65#7).toNat = 0 ∨ 64 < (65#7).toNat) ∧
    (1 ≤ (64#7).toNat ∧ (64#7).toNat ≤ 64 ∧
      32 * State.reset.params.nBufWords < globalOffset 14#16 1#5 + (64#7).toNat) ∧
    LegalField State.reset.params.nBufWords 64#7 14#16 0#5 ∧ LegalField State.reset.params.nBufWords 1#7 15#16 31#5 := by
  decide
theorem witness_FragmentCountOfLegalField :
    (1 ≤ 1 ∧ 1 ≤ 64 ∧ fragments 1 31 = 1) ∧ (1 ≤ 33 ∧ 33 ≤ 64 ∧ fragments 33 31 = 2) ∧
    (1 ≤ 34 ∧ 34 ≤ 64 ∧ fragments 34 31 = 3) ∧ (1 ≤ 64 ∧ 64 ≤ 64 ∧ fragments 64 0 = 2) := by decide
theorem witness_EncWritesExactlyTheField :
    Memory.wf State.reset.params State.reset.codec.buf = true ∧
    LegalField State.reset.params.nBufWords 64#7 14#16 0#5 := by decide
theorem witness_EncChangesOnlyFieldWordsAndViolCount :
    LegalField State.reset.params.nBufWords 61#7 0#16 4#5 := by decide
theorem witness_EncCountsRangeViolations :
    Memory.wf inError.params (withCodec fun c => { c with rchkEn := true, val := 0x3F#64 }).codec.buf = true ∧
    LegalField State.reset.params.nBufWords 5#7 0#16 3#5 ∧
    LegalField State.reset.params.nBufWords 64#7 0#16 0#5 ∧ 2 ^ (5#7).toNat - 1 < (0x3F#64).toNat := by decide
theorem witness_DecReadsTheField : LegalField State.reset.params.nBufWords 64#7 0#16 31#5 := by decide
theorem witness_DecAfterEncGivesTheValue :
    Memory.wf State.reset.params State.reset.codec.buf = true ∧
    LegalField State.reset.params.nBufWords 1#7 15#16 31#5 := by decide
theorem witness_EncKeepsDisjointFields :
    Memory.wf State.reset.params State.reset.codec.buf = true ∧
    LegalField State.reset.params.nBufWords 61#7 0#16 4#5 ∧ LegalField State.reset.params.nBufWords 4#7 0#16 0#5 ∧
    DisjointFields 61#7 0#16 4#5 4#7 0#16 0#5 := by decide
theorem witness_DisjointEncsCommute :
    Memory.wf State.reset.params State.reset.codec.buf = true ∧
    LegalField State.reset.params.nBufWords 12#7 0#16 0#5 ∧ LegalField State.reset.params.nBufWords 64#7 0#16 12#5 ∧
    DisjointFields 12#7 0#16 0#5 64#7 0#16 12#5 := by decide
theorem witness_SecondEncOfAFieldDecides :
    Memory.wf State.reset.params State.reset.codec.buf = true ∧
    LegalField State.reset.params.nBufWords 64#7 0#16 31#5 := by decide
theorem witness_CrcOfWordIsBitSerial :
    Params.default.crcWordOrder = .leBytes ∧ beParams.crcWordOrder = .beBytes := by decide
theorem witness_FeedInIdleTakesHeaderWord0 : State.reset.cv.state = .idle := by decide
theorem witness_HeaderVerdictCoversBothHeaderWords :
    State.reset.cv.state = .idle ∧ (0x01000001#32).extractLsb' 0 24 ≠ 0#24 := by decide

/-- V1 after its first word. -/
def inHdr1 : State := withCv fun v => { v with state := .hdr1, blockid := 6#8, acc := 0x37D885D6#32 }
/-- V1 after its second word. -/
def inHcrc : State := withCv fun v =>
  { v with state := .hcrc, blockid := 6#8, size := 2#24, remain := 2#24, acc := 0xBF941DBD#32 }
/-- V4 after its second word. -/
def inTerm : State := withCv fun v => { v with state := .hcrc, acc := 0x9ADD2096#32 }
/-- V1 after its third word. -/
def inBody2 : State := withCv fun v =>
  { v with state := .body, hdrOk := true, blockid := 6#8, size := 2#24, remain := 2#24 }
/-- V1 after its fourth word. -/
def inBody1 : State := withCv fun v =>
  { v with state := .body, hdrOk := true, blockid := 6#8, size := 2#24, remain := 1#24, acc := 0x5092782D#32 }
/-- V1 after its fifth word. -/
def inBcrc : State := withCv fun v =>
  { v with state := .bcrc, hdrOk := true, blockid := 6#8, size := 2#24, acc := 0x797D6214#32 }

/-- The STATUS words of table E3, one state for each error code of rule R126. -/
theorem witness_StatusRegistersShowTheirFields_codes :
    (State.reset.codec.errcode = .none ∧ readReg State.reset 0x001#17 = 0x00000000#32) ∧
    ((cmdError .illegalOp State.reset).codec.errcode = .illegalOp ∧
      readReg (cmdError .illegalOp State.reset) 0x001#17 = 0x00000003#32) ∧
    ((cmdError .badWidth State.reset).codec.errcode = .badWidth ∧
      readReg (cmdError .badWidth State.reset) 0x001#17 = 0x00000005#32) ∧
    ((cmdError .outOfBuffer State.reset).codec.errcode = .outOfBuffer ∧
      readReg (cmdError .outOfBuffer State.reset) 0x001#17 = 0x00000007#32) := by decide
/-- The CV_STATUS words of trace V1, one state for each framing state of rule R34. -/
theorem witness_StatusRegistersShowTheirFields_states :
    (State.reset.cv.state = .idle ∧ readReg State.reset 0x011#17 = 0x00000000#32) ∧
    (inHdr1.cv.state = .hdr1 ∧ readReg inHdr1 0x011#17 = 0x00000601#32) ∧
    (inHcrc.cv.state = .hcrc ∧ readReg inHcrc 0x011#17 = 0x00000602#32) ∧
    (inBody2.cv.state = .body ∧ readReg inBody2 0x011#17 = 0x0000060B#32) ∧
    (inBcrc.cv.state = .bcrc ∧ readReg inBcrc 0x011#17 = 0x0000060C#32) := by decide
theorem witness_FeedInHdr1TakesSizeWord : inHdr1.cv.state = .hdr1 := by decide
theorem witness_FeedInHcrcChecksHeader :
    (inTerm.cv.state = .hcrc ∧ inTerm.cv.size = 0#24) ∧
    (inHcrc.cv.state = .hcrc ∧ inHcrc.cv.size ≠ 0#24 ∧ crcFinal inHcrc.params inHcrc.cv.acc = 0x406BE242#32) ∧
    crcFinal inHcrc.params inHcrc.cv.acc ≠ 0#32 := by decide
theorem inv_inBody1 : inBody1.Inv := by
  refine ⟨by decide, by decide, by decide, ?_⟩
  refine ⟨by decide, by decide, by decide, by decide, by decide, by decide, by decide⟩
theorem inv_inBody2 : inBody2.Inv := by
  refine ⟨by decide, by decide, by decide, ?_⟩
  refine ⟨by decide, by decide, by decide, by decide, by decide, by decide, by decide⟩
theorem witness_FeedInBodyCountsWords :
    (inBody1.Inv ∧ inBody1.cv.state = .body ∧ inBody1.cv.remain.toNat = 1) ∧
    (inBody2.Inv ∧ inBody2.cv.state = .body ∧ inBody2.cv.remain.toNat = 2) :=
  ⟨⟨inv_inBody1, by decide, by decide⟩, inv_inBody2, by decide, by decide⟩
theorem witness_FeedInBcrcChecksBody :
    inBcrc.cv.state = .bcrc ∧ crcFinal inBcrc.params inBcrc.cv.acc = 0x86829DEB#32 ∧
    crcFinal inBcrc.params inBcrc.cv.acc ≠ 0#32 := by decide
theorem witness_BodyVerdictCoversTheBody :
    inBody2.cv.state = .body ∧ inBody2.cv.acc = inBody2.params.crcInit ∧ inBody2.cv.bodyOk = false ∧
    inBody2.cv.bodyBad = false ∧ [0x12345678#32, 0x9ABCDEF0#32] ≠ [] ∧
    inBody2.cv.remain.toNat = [0x12345678#32, 0x9ABCDEF0#32].length := by decide
theorem witness_VerdictsAreAdvisory :
    (inHcrc.cv.state = .hcrc ∧ inHcrc.cv.size ≠ 0#24 ∧ crcFinal inHcrc.params inHcrc.cv.acc = 0x406BE242#32 ∧
      crcFinal inHcrc.params inHcrc.cv.acc ≠ 0#32) ∧
    (inBcrc.cv.state = .bcrc ∧ crcFinal inBcrc.params inBcrc.cv.acc = 0x86829DEB#32 ∧
      crcFinal inBcrc.params inBcrc.cv.acc ≠ 0#32) := by decide

/-- Block B of program P3: a good header CRC, a bad body CRC. -/
def blockB : CfgBlock where
  h0 := 0x0A000000#32
  h1 := 0x00000001#32
  hcrc := 0x972EA0AD#32
  body := [0xCAFEF00D#32]
  bcrc := 0#32

theorem witness_WholeBlobOutcome :
    (∀ b ∈ [blockB], b.Framed) ∧ (∀ b ∈ ([] : List CfgBlock), b.Framed) ∧ (0xFF000000#32).extractLsb' 0 24 = 0#24 := by
  decide
theorem test_block_mismatches : blockB.hdrMismatch Params.default = false ∧
    blockB.bodyMismatch Params.default = true := by decide +kernel
theorem witness_RejectionIsPrecise :
    exec (.illegal67 0#1 0#28) State.reset = .next (cmdError .illegalOp State.reset) ∧
    exec (.wrCmd 0x18200000#32) State.reset = .next (cmdError .badWidth State.reset) ∧
    exec (.enc 64#7 14#16 1#5) State.reset = .next (cmdError .outOfBuffer State.reset) ∧
    exec (.wrStatus 1#32) inError = .next State.reset := by
  refine ⟨by rfl, by rfl, by rfl, by rfl⟩
theorem witness_ErrorRecordBlocksNothing :
    (∀ off, Instr.cvrst 0#28 ≠ .rd off) ∧ exec (.cvrst 0#28) inBcrc = .next State.reset := by
  refine ⟨by simp, by rfl⟩
theorem witness_CodecRegistersChangeOnlyByTheirOwners :
    exec (.wrCmd 0x30000000#32) (withCodec fun c => { c with viol := 2#32 }) = .next State.reset ∧
    State.reset.codec.viol ≠ (withCodec fun c => { c with viol := 2#32 }).codec.viol ∧
    exec (.wrCtrl 1#32) State.reset = .next (withCodec fun c => { c with rchkEn := true }) := by
  refine ⟨by rfl, by decide, by rfl⟩
theorem witness_CodecRegistersChangeOnlyByTheirOwners_field :
    exec (.dec 32#7 0#16 0#5) (withCodec fun c => { c with buf := buf3 5#32 0#32 0#32 }) =
      .next (withCodec fun c => { c with buf := buf3 5#32 0#32 0#32, res := 5#64 }) ∧
    exec (.enc 32#7 0#16 0#5) (withCodec fun c => { c with val := 5#64 }) =
      .next (withCodec fun c => { c with val := 5#64, buf := buf3 5#32 0#32 0#32 }) ∧
    exec (.wrValLo 5#32) State.reset = .next (withCodec fun c => { c with val := 5#64 }) := by
  refine ⟨by rfl, by rfl, by rfl⟩
theorem witness_ValidatorMovesOnlyWhenFedOrReset :
    exec (.wrCmd 0x50000000#32) inBcrc = .next State.reset ∧ State.reset.cv ≠ inBcrc.cv := by
  refine ⟨by rfl, by decide⟩
theorem witness_UnitsDoNotInterfere :
    inBcrc.params = State.reset.params ∧ exec (.clrbuf 0#28) inBcrc = .next inBcrc ∧
    exec (.clrbuf 0#28) State.reset = .next State.reset ∧ inBcrc.codec = State.reset.codec ∧
    exec (.clrbuf 0#28) inError = .next inError ∧ inError.cv = State.reset.cv := by
  refine ⟨by decide, by rfl, by rfl, by decide, by rfl, by decide⟩
theorem witness_OnlyReadsReturnWords :
    exec (.rd 0x009#17) State.reset = .next { State.reset with returned := [0x00000010#32] } ∧
    exec (.nop 0#28) State.reset = .next State.reset := by
  refine ⟨by rfl, by rfl⟩
theorem witness_ResetValues : 15 < Params.default.nBufWords := by decide
theorem witness_SoftwareReachesTheResetState :
    { inError with pending := [.reset, .access (.read 0x001#17)] }.pending =
      .reset :: [.access (.read 0x001#17)] := by decide
theorem witness_ParametersAreFixed :
    step { inError with pending := [.reset] } = .next State.reset := by rfl
theorem witness_ResetMeetsTheInvariant : Params.default.wf = true ∧ { beParams with nBufWords := 65536 }.wf = true := by
  decide
theorem inv_reset : State.reset.Inv := by
  refine ⟨by decide, by decide, by decide, ?_⟩
  refine ⟨by decide, by decide, by decide, by decide, by decide, by decide, by decide⟩
theorem witness_EveryStepKeepsTheInvariant :
    (pendingOne (.write 0x002#17 0x60000000#32)).Inv ∧
    step (pendingOne (.write 0x002#17 0x60000000#32)) = .next (cmdError .illegalOp State.reset) :=
  ⟨inv_reset, by rfl⟩

end Sys2Proof.Tests
end

/-! PROOFS. The statements of 00_scope.md. -/

namespace Sys2Proof.Proofs
open Sys2Proof Sys2Proof.Machine

/-- Settles O49: `satinc_toNat` gives the increment as a minimum, whose two sides are the two clauses of rule R10. -/
theorem countersSaturate : Obligations.CountersSaturate := by
  intro c
  rw [satinc_toNat]
  split
  next hbelow => exact min_eq_left (Nat.succ_le_of_lt hbelow)
  next htop => exact min_eq_right (Nat.le_succ_of_le (Nat.le_of_not_lt htop))

end Sys2Proof.Proofs

/-! PROOFS. The statements of 10_state.md. -/

namespace Sys2Proof.Proofs
open Sys2Proof Sys2Proof.Machine

/-- A command never stops the block: a bad descriptor and a reserved OP are rejections, which are ordinary steps
(60_exceptions.md rule R127). -/
theorem exec_decodeCmd_completes (d : Word) (s : State) : ∃ t, exec (decodeCmd d) s = .next t := by
  have henc : ∀ w wo bo, ∃ t, exec (.enc w wo bo) s = .next t := fun w wo bo =>
    (execEnc_effect w wo bo s).imp fun _ h => h.1
  have hdec : ∀ w wo bo, ∃ t, exec (.dec w wo bo) s = .next t := fun w wo bo =>
    (execDec_effect w wo bo s).imp fun _ h => h.1
  unfold decodeCmd caseCmd
  split_ifs
  · exact ⟨_, rfl⟩ -- NOP
  · exact henc _ _ _ -- ENC
  · exact hdec _ _ _ -- DEC
  · exact ⟨_, rfl⟩ -- BEGIN
  · exact ⟨_, rfl⟩ -- CLRBUF
  · exact ⟨_, rfl⟩ -- CVRST
  · exact ⟨_, rfl⟩ -- OP 6 and 7
  · exact ⟨_, rfl⟩ -- OP 8 to 15

/-- CMD is write-only: it reads 0 in every state (10_state.md rule R25). -/
@[simp] theorem readReg_cmd (s : State) : readReg s 0x002#17 = 0#32 := rfl

/-- Settles O20: the command completes, and the write to CMD has its meaning, by the dispatch they share
(30_encoding.md rule R70). -/
theorem commandWriteExecutesTheCommand : Obligations.CommandWriteExecutesTheCommand := by
  intro s d
  obtain ⟨t, ht⟩ := exec_decodeCmd_completes d s
  exact ⟨t, (execWrCmd_eq_exec_decodeCmd d s).trans ht, ht, readReg_cmd t⟩

end Sys2Proof.Proofs

/-! PROOFS. The statements of 30_encoding.md. -/

namespace Sys2Proof.Proofs
open Sys2Proof Sys2Proof.Machine

/-! ## The fields of a command word -/

/-- The global bit offset of a command word is its low 21 bits (30_encoding.md rule R66). -/
theorem globalOffset_slices (d : Word) :
    globalOffset (d.extractLsb' 5 16) (d.extractLsb' 0 5) = (d.extractLsb' 0 21).toNat := by
  simp only [globalOffset, BitVec.extractLsb'_toNat, Nat.shiftRight_eq_div_pow]
  omega

theorem globalOffset_div (wo : BitVec 16) (bo : BitVec 5) : globalOffset wo bo / 32 = wo.toNat := by
  have hbo := bo.isLt
  unfold globalOffset
  omega

theorem globalOffset_mod (wo : BitVec 16) (bo : BitVec 5) : globalOffset wo bo % 32 = bo.toNat := by
  have hbo := bo.isLt
  unfold globalOffset
  omega

/-- Settles O5: the value is `globalOffset_slices`; BIT_OFFSET is below 32, so 32 divides it off. -/
theorem globalOffsetIsLowBitsOfCommand : Obligations.GlobalOffsetIsLowBitsOfCommand :=
  fun d => ⟨rfl, globalOffset_slices d, globalOffset_div _ _, globalOffset_mod _ _⟩

/-- CMD[31:29] tells the two rows of reserved commands apart: it is OP without its lowest bit. -/
theorem op_top_eq_three_iff (d : Word) :
    d.extractLsb' 29 3 = 0x3#3 ↔ 6 ≤ (d.extractLsb' 28 4).toNat ∧ (d.extractLsb' 28 4).toNat ≤ 7 := by
  simp only [← BitVec.toNat_inj, BitVec.extractLsb'_toNat, Nat.shiftRight_eq_div_pow, BitVec.toNat_ofNat]
  omega

/-! ## The case distinction on OP, one equation per case (rules R68 and R70)

The decoder, the dispatch of a write to CMD and the disassembler are all uses of `caseCmd`. -/

section CaseCmd

variable {α : Type} {onNop onBegin onClrbuf onCvrst : BitVec 28 → α}
  {onEnc onDec : BitVec 7 → BitVec 16 → BitVec 5 → α}
  {onIllegal67 : BitVec 1 → BitVec 28 → α} {onIllegal8F : BitVec 3 → BitVec 28 → α} {d : Word}

theorem caseCmd_nop (h : d.extractLsb' 28 4 = 0x0#4) :
    caseCmd onNop onEnc onDec onBegin onClrbuf onCvrst onIllegal67 onIllegal8F d = onNop (d.extractLsb' 0 28) := by
  simp [caseCmd, h]

theorem caseCmd_enc (h : d.extractLsb' 28 4 = 0x1#4) :
    caseCmd onNop onEnc onDec onBegin onClrbuf onCvrst onIllegal67 onIllegal8F d =
      onEnc (d.extractLsb' 21 7) (d.extractLsb' 5 16) (d.extractLsb' 0 5) := by
  simp [caseCmd, h]

theorem caseCmd_dec (h : d.extractLsb' 28 4 = 0x2#4) :
    caseCmd onNop onEnc onDec onBegin onClrbuf onCvrst onIllegal67 onIllegal8F d =
      onDec (d.extractLsb' 21 7) (d.extractLsb' 5 16) (d.extractLsb' 0 5) := by
  simp [caseCmd, h]

theorem caseCmd_begin (h : d.extractLsb' 28 4 = 0x3#4) :
    caseCmd onNop onEnc onDec onBegin onClrbuf onCvrst onIllegal67 onIllegal8F d = onBegin (d.extractLsb' 0 28) := by
  simp [caseCmd, h]

theorem caseCmd_clrbuf (h : d.extractLsb' 28 4 = 0x4#4) :
    caseCmd onNop onEnc onDec onBegin onClrbuf onCvrst onIllegal67 onIllegal8F d = onClrbuf (d.extractLsb' 0 28) := by
  simp [caseCmd, h]

theorem caseCmd_cvrst (h : d.extractLsb' 28 4 = 0x5#4) :
    caseCmd onNop onEnc onDec onBegin onClrbuf onCvrst onIllegal67 onIllegal8F d = onCvrst (d.extractLsb' 0 28) := by
  simp [caseCmd, h]

/-- A reserved OP passes by the six tests for a named command; CMD[31:29] then decides between the two rows. -/
theorem caseCmd_reserved (h : 6 ≤ (d.extractLsb' 28 4).toNat) :
    caseCmd onNop onEnc onDec onBegin onClrbuf onCvrst onIllegal67 onIllegal8F d =
      if (d.extractLsb' 28 4).toNat ≤ 7 then onIllegal67 (d.extractLsb' 28 1) (d.extractLsb' 0 28)
      else onIllegal8F (d.extractLsb' 28 3) (d.extractLsb' 0 28) := by
  have hne : ∀ op : BitVec 4, op.toNat < 6 → d.extractLsb' 28 4 ≠ op := fun op hop e => by
    rw [e] at h
    omega
  simp only [caseCmd, hne 0x0#4 (by decide), hne 0x1#4 (by decide), hne 0x2#4 (by decide), hne 0x3#4 (by decide),
    hne 0x4#4 (by decide), hne 0x5#4 (by decide), op_top_eq_three_iff, h, true_and, if_false]

end CaseCmd

/-- Settles O6: the equations of `caseCmd`, at the constructors the decoder answers. -/
theorem opSelectsTheCommand : Obligations.OpSelectsTheCommand := fun _ =>
  ⟨caseCmd_nop, caseCmd_enc, caseCmd_dec, caseCmd_begin, caseCmd_clrbuf, caseCmd_cvrst,
    fun h6 h7 => (caseCmd_reserved h6).trans (if_pos h7),
    fun h8 => (caseCmd_reserved (by omega)).trans (if_neg (by omega))⟩

/-! ## Rejected commands -/

/-- The effect of a rejection, written out with the first-error clause of rule R127 (60_exceptions.md) as it reads. -/
theorem cmdError_eq (code : ErrCode) (s : State) :
    cmdError code s = { s with codec := { s.codec with
      errcode := if s.codec.err = false then code else s.codec.errcode
      err := true
      errcnt := satinc s.codec.errcnt } } := by
  unfold cmdError recordError
  cases s.codec.err <;> rfl

/-- A write to CMD of a reserved OP is the rejection of the command it stands for (30_encoding.md rule R71). -/
theorem execWrCmd_reserved {d : Word} (h : 6 ≤ (d.extractLsb' 28 4).toNat) (s : State) :
    execWrCmd d s = .next (cmdError .illegalOp s) := by
  rw [execWrCmd, caseCmd_reserved h]
  split <;> rfl

/-- Settles O23: all three are the rejection with ILLEGAL_OP, whose effect is `cmdError_eq`. -/
theorem reservedOpIsRejected : Obligations.ReservedOpIsRejected := by
  intro s ign
  simp only [← cmdError_eq]
  exact ⟨fun _ => rfl, fun _ => rfl, fun _ h => execWrCmd_reserved h s⟩

/-- A width of 0 or above 64 rejects ENC before its offset is looked at (41_codec.md rule R89). -/
theorem execEnc_badWidth {w : BitVec 7} (h : w.toNat = 0 ∨ 64 < w.toNat) (wo : BitVec 16) (bo : BitVec 5) (s : State) :
    execEnc w wo bo s = .next (cmdError .badWidth s) := by
  have : checkField s.params.nBufWords (fieldWidth w) (globalOffset wo bo) = some .badWidth :=
    (checkField_badWidth_iff _ _ _).2 h
  simp only [execEnc, this]

/-- Settles O1: the fifteen rows are closed and evaluated; the three rejections hold in every state, by the width check
and by the meaning of a reserved OP. -/
theorem encodingExamplesAssembleAndDecode : Obligations.EncodingExamplesAssembleAndDecode := by
  refine ⟨?_, ?_, ?_, ?_, ?_, ?_, ?_, ?_, ?_, ?_, ?_, ?_, ?_, ?_, ?_, fun s => ⟨?badWidth0, ?badWidth65, ?illegalOp⟩⟩
  case badWidth0 => exact execEnc_badWidth (w := 0#7) (by decide) 0#16 0#5 s
  case badWidth65 => exact execEnc_badWidth (w := 65#7) (by decide) 0#16 0#5 s
  case illegalOp => rfl
  all_goals decide

/-! ## The offset of a transaction -/

theorem inWindow_iff (p : Params) (off : Offset) : inWindow p off = true ↔ off.toNat < 0x100 + p.nBufWords :=
  decide_eq_true_iff

/-- A read is rejected exactly outside the window (40_host_access.md rule R84). -/
theorem decode_read_error_iff (p : Params) (off : Offset) :
    decode p (.transaction (.read off)) = .error .outsideWindow ↔ 0x100 + p.nBufWords ≤ off.toNat := by
  rw [← not_lt, ← inWindow_iff]
  simp only [decode, decodeTxn]
  split <;> simp [*]

/-- From 0x100 on a write is to a buffer word or outside the window: the rows below all end before it. -/
theorem decodeWrite_of_ge {off : Offset} (h : 0x100 ≤ off.toNat) (p : Params) (d : Word) :
    decodeWrite p off d =
      if inWindow p off then .ok (.wrBuf ((off - 0x100#17).setWidth 16) d) else .error .outsideWindow := by
  unfold decodeWrite
  rw [if_neg (by omega), if_neg (by omega), if_neg (by omega), if_neg (by omega), if_neg (by omega)]

/-- A write to offset 0x100 + k is a write to BUF[k]. -/
theorem decodeWrite_buf {p : Params} {k : BitVec 16} {off : Offset} (hk : k.toNat < p.nBufWords)
    (hoff : off.toNat = 0x100 + k.toNat) (d : Word) : decodeWrite p off d = .ok (.wrBuf k d) := by
  have hidx : (off - 0x100#17).setWidth 16 = k := by bv_omega
  rw [decodeWrite_of_ge (by omega), if_pos ((inWindow_iff p off).2 (by omega)), hidx]

/-- A write is rejected exactly outside the window (40_host_access.md rule R84). -/
theorem decodeWrite_error_iff (p : Params) (off : Offset) (d : Word) :
    decodeWrite p off d = .error .outsideWindow ↔ 0x100 + p.nBufWords ≤ off.toNat := by
  rw [← not_lt, ← inWindow_iff]
  constructor
  · intro h
    simp [decodeWrite_error h]
  · intro hout
    have hge : 0x100 ≤ off.toNat := by
      rw [inWindow_iff] at hout
      omega
    rw [decodeWrite_of_ge hge, if_neg hout]

/-- The codec's registers that software cannot write, and the reserved offsets after them (40_host_access.md rule
R83). -/
theorem exec_decodeCodecWrite_ignored {off : Offset} (h : off.toNat = 0x003 ∨ 0x006 ≤ off.toNat) (d : Word)
    (s : State) : exec (decodeCodecWrite off d) s = .next s := by
  obtain h | h := h
  · obtain rfl : off = 0x003#17 := BitVec.eq_of_toNat_eq h
    rfl
  · have hne : ∀ c : Offset, c.toNat < 0x006 → off ≠ c := by
      rintro c hc rfl
      omega
    simp only [decodeCodecWrite, hne 0x000#17 (by decide), hne 0x001#17 (by decide), hne 0x002#17 (by decide),
      hne 0x003#17 (by decide), hne 0x004#17 (by decide), hne 0x005#17 (by decide), if_false]
    split <;> rfl

/-- The validator's registers but CV_DATA, and the reserved offsets after them (40_host_access.md rule R83). -/
theorem exec_decodeCvWrite_ignored {off : Offset} (h : off ≠ 0x010#17) (d : Word) (s : State) :
    exec (decodeCvWrite off d) s = .next s := by
  simp only [decodeCvWrite, h, if_false]
  split_ifs <;> rfl

/-- A write to a read-only register or a reserved offset changes nothing (40_host_access.md rule R83). -/
theorem decodeWrite_ignored {off : Offset} (h : off.toNat = 0x003 ∨ (0x006 ≤ off.toNat ∧ off.toNat ≤ 0x00F) ∨
      (0x011 ≤ off.toNat ∧ off.toNat ≤ 0x0FF)) (p : Params) (d : Word) :
    ∃ i, decodeWrite p off d = .ok i ∧ ∀ s, exec i s = .next s := by
  unfold decodeWrite
  split_ifs
  · exact ⟨_, rfl, exec_decodeCodecWrite_ignored (by omega) d⟩
  · exact ⟨_, rfl, exec_decodeCvWrite_ignored (by bv_omega) d⟩
  · exact ⟨_, rfl, fun _ => rfl⟩ -- reserved, 0x020 to 0x03F
  · exact ⟨_, rfl, fun _ => rfl⟩ -- reserved, 0x040 to 0x07F
  · exact ⟨_, rfl, fun _ => rfl⟩ -- reserved, 0x080 to 0x0FF
  · omega
  · omega

/-- Settles O4: the writes to a single register are evaluated; the ranges are the lemmas above. -/
theorem offsetSelectsTheOperation : Obligations.OffsetSelectsTheOperation := fun p d =>
  ⟨fun off h => if_pos ((inWindow_iff p off).2 h), rfl, rfl, rfl, fun _ _ hk hoff => decodeWrite_buf hk hoff d,
    rfl, rfl, rfl, fun _ h => decodeWrite_ignored h p d,
    fun off => ⟨decode_read_error_iff p off, decodeWrite_error_iff p off d⟩⟩

end Sys2Proof.Proofs

/-! PROOFS. The statements of 40_host_access.md. -/

namespace Sys2Proof.Proofs
open Sys2Proof Sys2Proof.Machine

/-! ## Accesses outside the window (rule R84) -/

theorem execRd_outside {off : Offset} {s : State} (h : 0x100 + s.params.nBufWords ≤ off.toNat) :
    execRd off s = .refused .outsideWindow := by
  have hout : ¬inWindow s.params off = true := by rwa [inWindow_iff, not_lt]
  exact if_neg hout

theorem execWrBuf_outside {k : BitVec 16} {s : State} (h : s.params.nBufWords ≤ k.toNat) (d : Word) :
    execWrBuf k d s = .refused .outsideWindow :=
  if_neg (not_lt.2 h)

/-- The step refuses a transaction that the decoder rejects, with the decoder's reason. -/
theorem step_of_decode_error {s : State} {t : Txn} {rest : List Event} {e : Reject}
    (hp : s.pending = .access t :: rest) (he : decode s.params (.transaction t) = .error e) :
    step s = .refused (refusalOf e) := by
  rw [step_of_access hp]
  simp only [access, he]

/-- Settles O12: the two meanings check the offset themselves; the step is refused by the decoder. -/
theorem accessOutsideWindowIsRefused : Obligations.AccessOutsideWindowIsRefused := fun s =>
  ⟨fun _ h => execRd_outside h, fun _ d h => execWrBuf_outside h d,
    fun off _ h hp => step_of_decode_error hp ((decode_read_error_iff s.params off).2 h),
    fun off d _ h hp => step_of_decode_error hp ((decodeWrite_error_iff s.params off d).2 h)⟩

/-! ## The read function (rule R81)

At a register's offset `readReg` is evaluated; its ranges are these lemmas. -/

/-- The codec has no register from 0x00A on. -/
theorem readCodecReg_reserved {n : Nat} (h : 0x00A ≤ n) (s : State) : readCodecReg s n = 0#32 := by
  obtain ⟨m, rfl⟩ := Nat.exists_eq_add_of_le' h
  rfl

/-- The validator has no register from 0x018 on. -/
theorem readCvReg_reserved {n : Nat} (h : 0x018 ≤ n) (v : Validator) : readCvReg v n = 0#32 := by
  obtain ⟨m, rfl⟩ := Nat.exists_eq_add_of_le' h
  rfl

theorem readReg_reserved {off : Offset}
    (h : 0x00A ≤ off.toNat ∧ off.toNat ≤ 0x00F ∨ 0x018 ≤ off.toNat ∧ off.toNat ≤ 0x0FF) (s : State) :
    readReg s off = 0#32 := by
  unfold readReg
  obtain ⟨hlo, hhi⟩ | ⟨hlo, hhi⟩ := h
  · rw [if_pos (by omega), readCodecReg_reserved hlo]
  · rw [if_neg (by omega), if_pos (by omega), readCvReg_reserved hlo]

theorem readReg_buf {s : State} {k : Nat} {off : Offset} (hk : k < s.params.nBufWords) (hoff : off.toNat = 0x100 + k) :
    readReg s off = readBuf s.codec.buf k := by
  unfold readReg
  rw [if_neg (by omega), if_neg (by omega), if_pos (by omega), hoff, Nat.add_sub_cancel_left]

theorem readReg_outside {s : State} {off : Offset} (h : 0x100 + s.params.nBufWords ≤ off.toNat) :
    readReg s off = 0#32 := by
  unfold readReg
  rw [if_neg (by omega), if_neg (by omega), if_neg (by omega)]

/-- CV_DATA is write-only: it reads 0 in every state. -/
@[simp] theorem readReg_cvData (s : State) : readReg s 0x010#17 = 0#32 := rfl

/-- Settles O15: the eighteen registers are evaluated; BUF and the offsets without a register are the lemmas above. -/
theorem readFunctionByOffset : Obligations.ReadFunctionByOffset := fun s =>
  ⟨rfl, rfl, readReg_cmd s, rfl, rfl, rfl, rfl, rfl, rfl, rfl, readReg_cvData s, rfl, rfl, rfl, rfl, rfl, rfl, rfl,
    fun _ _ hk hoff => readReg_buf hk hoff,
    fun _ h => (or_assoc.2 h).elim (fun hres => readReg_reserved hres s) readReg_outside⟩

/-! ## Reads (rule R79) -/

theorem execRd_inside {off : Offset} {s : State} (h : off.toNat < 0x100 + s.params.nBufWords) :
    execRd off s = .next (returnWord (readReg s off) s) :=
  if_pos ((inWindow_iff s.params off).2 h)

/-- A read has no side effect on any register: the record of returned words is not one (20_memory.md rule R53). -/
@[simp] theorem readReg_returnWord (w : Word) (s : State) (off : Offset) :
    readReg (returnWord w s) off = readReg s off := rfl

/-- Two reads of one offset return the same value twice. -/
theorem execAll_rd_rd {off : Offset} {s : State} (h : off.toNat < 0x100 + s.params.nBufWords) :
    execAll [.rd off, .rd off] s = .next (returnWord (readReg s off) (returnWord (readReg s off) s)) := by
  have hsecond : execRd off (returnWord (readReg s off) s) =
      .next (returnWord (readReg s off) (returnWord (readReg s off) s)) := by
    rw [execRd_inside (by simpa using h), readReg_returnWord]
  simp only [execAll, exec, execRd_inside h, hsecond]

/-- Settles O14: the second read finds the registers as the first one did, by `readReg_returnWord`. -/
theorem readReturnsTheRegister : Obligations.ReadReturnsTheRegister := by
  intro s off h
  refine ⟨execRd_inside h, ?twice, ?writeOnly, fun hres => readReg_reserved hres s⟩
  case twice =>
    rw [execAll_rd_rd h]
    simp [returnWord]
  case writeOnly =>
    rintro (rfl | rfl)
    · exact readReg_cmd s
    · exact readReg_cvData s

/-! ## Writes of data and control registers (rule R80) -/

theorem execWrBuf_inside {k : BitVec 16} {s : State} (h : k.toNat < s.params.nBufWords) (d : Word) :
    execWrBuf k d s = .next { s with codec := { s.codec with buf := writeBuf s.codec.buf k.toNat d } } :=
  if_pos h

/-- Settles O17: VAL is the concatenation of its halves, and a write of BUF[k] is the rules of `writeBuf`, for a k that
the canonical buffer holds. -/
theorem writeOfDataOrControlRegister : Obligations.WriteOfDataOrControlRegister := by
  intro s d
  refine ⟨rfl, ⟨_, rfl, rfl, slice_low _ d, slice_high _ d⟩, ⟨_, rfl, rfl, slice_high d _, slice_low d _⟩, ?_⟩
  intro k hwf hk
  have hlen : k.toNat < s.codec.buf.length := by rwa [(memory_wf_iff _ _).1 hwf]
  exact ⟨_, execWrBuf_inside hk d, rfl, length_writeBuf _ _ _, readBuf_writeBuf_same hlen d,
    fun j hj => readBuf_writeBuf_other hj d⟩

/-! ## The write of STATUS and the ignored writes (rules R82 and R83) -/

/-- Settles O18: the meaning of the write is the acknowledgement `clearErrors` under the same condition on d[0]. -/
theorem writeOfStatusClearsErrorRecord : Obligations.WriteOfStatusClearsErrorRecord := fun _ _ => rfl

/-- Settles O19: the ten meanings are all `ignoredWrite`, which answers the state it is given. -/
theorem ignoredWritesChangeNothing : Obligations.IgnoredWritesChangeNothing := fun _ _ =>
  ⟨rfl, fun _ => rfl, fun _ => rfl, rfl, fun _ => rfl, fun _ => rfl, fun _ => rfl, fun _ => rfl, fun _ => rfl,
    fun _ => rfl⟩

end Sys2Proof.Proofs

/-! PROOFS. The statements of 41_codec.md. -/

namespace Sys2Proof.Proofs
open Sys2Proof Sys2Proof.Machine

/-! ## Commands without operands -/

/-- Settles O22: the meaning of NOP answers the state it is given and does not look at the ignored bits. -/
theorem nopChangesNothing : Obligations.NopChangesNothing := fun _ _ => rfl

/-- Settles O35: the meaning of BEGIN is this one update of VIOL_COUNT. -/
theorem beginClearsViolCount : Obligations.BeginClearsViolCount := fun _ _ => rfl

/-- Settles O36: the buffer becomes `clearBuf`, whose length and words its two lemmas give. -/
theorem clrbufClearsEveryWord : Obligations.ClrbufClearsEveryWord := fun s _ =>
  ⟨_, rfl, rfl, length_clearBuf s.params, readBuf_clearBuf s.params⟩

/-! ## The geometry of a field (rules R88 to R90) -/

theorem fieldSh_lt (G : Nat) : fieldSh G < 32 := Nat.mod_lt G (by decide)

/-- G is the position of the field's bit 0: word lo, bit sh (rule R88). -/
theorem fieldLo_add_fieldSh (G : Nat) : 32 * fieldLo G + fieldSh G = G := Nat.div_add_mod G 32

/-- The words a field touches hold all of its bits. -/
theorem fieldSh_add_le_fragments (W G : Nat) : fieldSh G + W ≤ 32 * fragments W G := by
  unfold fragments
  omega

/-- Settles O26: n - 1 is sh + W - 1 divided by 32, and sh is below 32. -/
theorem fragmentCountOfLegalField : Obligations.FragmentCountOfLegalField := by
  intro W G hpos hmax
  have hsh := fieldSh_lt G
  unfold fragments
  refine ⟨?one, ?two, ?three, ?threeNeeds⟩ <;> omega

/-! ## The descriptor check (rule R89) -/

/-- ENC and DEC answer the code of the descriptor check with its rejection, before they do anything else. -/
theorem exec_of_checkField_some {s : State} {w : BitVec 7} {wo : BitVec 16} {bo : BitVec 5} {i : Instr}
    {code : ErrCode} (hi : i = .enc w wo bo ∨ i = .dec w wo bo)
    (h : checkField s.params.nBufWords w.toNat (globalOffset wo bo) = some code) :
    exec i s = .next (cmdError code s) := by
  obtain rfl | rfl := hi
  · simp only [exec, execEnc, fieldWidth, h]
  · simp only [exec, execDec, fieldWidth, h]

/-- Settles O25: when the check answers which code is `checkField_badWidth_iff` and `checkField_outOfBuffer_iff`, and
the effect of the rejection is `cmdError_eq`. -/
theorem badDescriptorIsRejected : Obligations.BadDescriptorIsRejected := by
  intro s w wo bo i hi
  simp only [← cmdError_eq]
  refine ⟨fun hbad => ?badWidth, fun hpos hmax hout => ?outOfBuffer, fun ⟨hpos, _, hfits⟩ => ?inside⟩
  case badWidth => exact exec_of_checkField_some hi ((checkField_badWidth_iff _ _ _).2 hbad)
  case outOfBuffer => exact exec_of_checkField_some hi ((checkField_outOfBuffer_iff _ _ _).2 ⟨hpos, hmax, hout⟩)
  case inside => omega

/-! ## ENC on the bit string (rules R91 to R94)

Bit g of the bit string is bit g % 32 of word g / 32, and that is the word lo + k for k = g / 32 - lo. -/

/-- The mask has a 1 exactly at the field's bits. -/
theorem getLsbD_fieldMaskWord {G g : Nat} (hg : fieldLo G ≤ g / 32) (W : Nat) :
    (fieldMaskWord W G (g / 32 - fieldLo G)).getLsbD (g % 32) = decide (G ≤ g ∧ g < G + W) := by
  have hG := fieldLo_add_fieldSh G
  rw [fieldMaskWord, getLsbD_wordSlice _ _ _ (Nat.mod_lt g (by decide)), Nat.testBit_shiftLeft, testBit_mask,
    ← Bool.decide_and]
  exact decide_eq_decide.2 (by omega)

/-- The data has the bits of V at the field's bits, and 0 beside them: it is truncated to W bits (rule R94). -/
theorem getLsbD_fieldDataWord {G g : Nat} (hg : fieldLo G ≤ g / 32) (W : Nat) (V : DWord) :
    (fieldDataWord W G V (g / 32 - fieldLo G)).getLsbD (g % 32) =
      (decide (G ≤ g ∧ g < G + W) && V.getLsbD (g - G)) := by
  have hG := fieldLo_add_fieldSh G
  rw [fieldDataWord, getLsbD_wordSlice _ _ _ (Nat.mod_lt g (by decide)), Nat.testBit_shiftLeft, Nat.testBit_and,
    testBit_mask, BitVec.testBit_toNat]
  by_cases hGg : G ≤ g
  · have hidx : 32 * (g / 32 - fieldLo G) + g % 32 - fieldSh G = g - G := by omega
    have hsh : fieldSh G ≤ 32 * (g / 32 - fieldLo G) + g % 32 := by omega
    have hW : g - G < W ↔ g < G + W := by omega
    simp [hidx, hsh, hGg, hW, Bool.and_comm]
  · have hsh : ¬fieldSh G ≤ 32 * (g / 32 - fieldLo G) + g % 32 := by omega
    simp [hsh, hGg]

/-- What ENC's loop writes, as bits: V inside the field, and nothing else (rule R91). -/
theorem bitString_encodeField {W G : Nat} {buf : List Word} (hW : 1 ≤ W) (hfits : G + W ≤ 32 * buf.length)
    (V : DWord) (g : Nat) :
    bitString (encodeField W G V buf) g =
      if G ≤ g ∧ g < G + W then V.getLsbD (g - G) else bitString buf g := by
  have hG := fieldLo_add_fieldSh G
  have hbits := fieldSh_add_le_fragments W G
  unfold bitString
  rw [readBuf_encodeField (legalField_words hW hfits)]
  split
  case isTrue hword =>
    rw [BitVec.getLsbD_or, BitVec.getLsbD_and, BitVec.getLsbD_not, getLsbD_fieldMaskWord hword.1,
      getLsbD_fieldDataWord hword.1]
    split
    case isTrue hin => simp [hin]
    case isFalse hout => simp [hout, Nat.mod_lt]
  case isFalse hword => rw [if_neg (by omega)]

/-- An accepted ENC as bits: a canonical buffer holds the field, so `bitString_encodeField` applies (rule R91). -/
theorem bitString_encCodec {s : State} {w : BitVec 7} {wo : BitVec 16} {bo : BitVec 5}
    (hwf : Memory.wf s.params s.codec.buf = true) (h : LegalField s.params.nBufWords w wo bo) (g : Nat) :
    bitString (encCodec w.toNat (globalOffset wo bo) s.codec).buf g =
      if globalOffset wo bo ≤ g ∧ g < globalOffset wo bo + w.toNat then
        s.codec.val.getLsbD (g - globalOffset wo bo)
      else bitString s.codec.buf g := by
  obtain ⟨hpos, _, hfits⟩ := h
  rw [← (memory_wf_iff _ _).1 hwf] at hfits
  exact bitString_encodeField hpos hfits s.codec.val g

/-- Settles O27: `bitString_encCodec` at the state an accepted ENC answers. -/
theorem encWritesExactlyTheField : Obligations.EncWritesExactlyTheField := fun _ _ _ _ hwf h =>
  ⟨_, execEnc_accepted h, bitString_encCodec hwf h⟩

/-- The shift by which the block computes the range check decides V > 2^W - 1; it never does for W = 64, as V has 64
bits (rule R93). -/
theorem rangeViolation_iff (rchkEn : Bool) (W : Nat) (V : DWord) :
    rangeViolation rchkEn W V = true ↔ rchkEn = true ∧ 2 ^ W - 1 < V.toNat := by
  have hpow := Nat.two_pow_pos W
  have hshift : V.toNat >>> W ≠ 0 ↔ 2 ^ W - 1 < V.toNat := by
    rw [Nat.shiftRight_eq_div_pow, Nat.div_ne_zero_iff]
    omega
  have hwide : 2 ^ W - 1 < V.toNat → W < 64 := fun hlt =>
    (Nat.pow_lt_pow_iff_right (by decide)).1 (show 2 ^ W < 2 ^ 64 by have := V.isLt; omega)
  simp only [rangeViolation, Bool.and_eq_true, decide_eq_true_iff, hshift]
  tauto

/-- Settles O29: the count is `rangeViolation_iff`; the field's bits are `bitString_encCodec`, which does not ask
whether V is in range. -/
theorem encCountsRangeViolations : Obligations.EncCountsRangeViolations := by
  intro s w wo bo hwf h
  refine ⟨_, execEnc_accepted h, ?count, ?widest, fun j hj => ?field⟩
  case count => simp only [encCodec_viol, rangeViolation_iff]
  case widest =>
    intro h64
    simp [rangeViolation, h64]
  case field =>
    rw [bitString_encCodec hwf h, if_pos (by omega), Nat.add_sub_cancel_left]

/-! ## DEC on the bit string (rules R95 and R97) -/

/-- RES, bit by bit: the bits of the field, and 0 above them. -/
theorem testBit_decodeField {W : Nat} (hW : W ≤ 64) (G : Nat) (buf : List Word) (j : Nat) :
    (decodeField W G buf).toNat.testBit j = (decide (j < W) && bitString buf (G + j)) := by
  have hbit : 32 * fieldLo G + (fieldSh G + j) = G + j := by rw [← Nat.add_assoc, fieldLo_add_fieldSh]
  have hbits := fieldSh_add_le_fragments W G
  rw [BitVec.testBit_toNat]
  by_cases hj : j < W
  · have hread : fieldSh G + j < 32 * fragments W G := by omega
    rw [getLsbD_decodeField W G j buf (by omega), hbit, decide_eq_true hread, Bool.true_and]
  · by_cases h64 : j < 64
    · simp [getLsbD_decodeField W G j buf h64, hj]
    · simp [BitVec.getLsbD_of_ge _ _ (not_lt.1 h64), hj]

theorem decodeField_lt {W : Nat} (hW : W ≤ 64) (G : Nat) (buf : List Word) :
    (decodeField W G buf).toNat < 2 ^ W :=
  Nat.lt_pow_two_of_testBit _ fun j hj => by simp [testBit_decodeField hW, hj]

/-- The low n bits of a number, by weight. -/
theorem mod_two_pow_eq_sum_testBit (x n : Nat) :
    x % 2 ^ n = (Finset.range n).sum fun j => (x.testBit j).toNat * 2 ^ j := by
  induction n with
  | zero => simp [Nat.mod_one]
  | succ n ih => rw [Finset.sum_range_succ, ← ih, Nat.mod_pow_succ, Nat.toNat_testBit, Nat.mul_comm]

/-- DEC's value is the sum of the field's bits by weight (rule R95). -/
theorem decodeField_toNat {W : Nat} (hW : W ≤ 64) (G : Nat) (buf : List Word) :
    (decodeField W G buf).toNat = (Finset.range W).sum fun j => (bitString buf (G + j)).toNat * 2 ^ j := by
  rw [← Nat.mod_eq_of_lt (decodeField_lt hW G buf), mod_two_pow_eq_sum_testBit]
  refine Finset.sum_congr rfl fun j hj => ?_
  rw [testBit_decodeField hW, decide_eq_true (Finset.mem_range.1 hj), Bool.true_and]

/-- Settles O30: the frame is `decCodec`, which writes RES only; the value is `decodeField_toNat`. -/
theorem decReadsTheField : Obligations.DecReadsTheField := by
  intro s w wo bo h
  have ⟨_, hmax, _⟩ := h
  exact ⟨_, execDec_accepted h, rfl, decodeField_toNat hmax (globalOffset wo bo) s.codec.buf⟩

end Sys2Proof.Proofs

/-! PROOFS. The statements of 42_crc_validator.md. -/

namespace Sys2Proof.Proofs
open Sys2Proof Sys2Proof.Machine

/-! ## The CRC, one bit at a time (rules R106 and R107)

The byte loop puts its eight data bits into the accumulator before the first round; the bit-serial form takes each bit
when its round begins. They agree because a round is linear: the bits still to come are shifted down with the
accumulator and not changed by the polynomial. -/

/-- One bit-serial step: the data bit b enters with the bit shifted out (rule R107). -/
def crcBit (p : Params) (c : Word) (b : Bool) : Word :=
  if c.getLsbD 0 ^^ b then (c >>> 1) ^^^ p.crcPoly else c >>> 1

/-- A round on an accumulator that holds data v takes bit 0 of v and leaves the other bits of v for the next rounds. -/
theorem crcRound_xor (p : Params) (c v : Word) : crcRound p (c ^^^ v) = crcBit p c (v.getLsbD 0) ^^^ (v >>> 1) := by
  have hshift : (c ^^^ v) >>> 1 = (c >>> 1) ^^^ (v >>> 1) := BitVec.ushiftRight_xor_distrib c v 1
  rw [crcRound, crcBit, BitVec.getLsbD_xor, hshift]
  split
  · rw [BitVec.xor_assoc, BitVec.xor_comm (v >>> 1), ← BitVec.xor_assoc]
  · rfl

/-- n rounds take the bits 0 to n - 1 of the data one at a time. -/
theorem crcRound_iterate_xor (p : Params) (c v : Word) (n : Nat) :
    (crcRound p)^[n] (c ^^^ v) = (List.range n).foldl (fun x i => crcBit p x (v.getLsbD i)) c ^^^ (v >>> n) := by
  induction n with
  | zero => simp
  | succ n ih =>
    rw [Function.iterate_succ_apply', ih, crcRound_xor, List.range_succ, List.foldl_append, BitVec.getLsbD_ushiftRight,
      BitVec.shiftRight_add]
    rfl

/-- The byte loop over byte k of w takes the bits of w from 8 * k on. -/
theorem crcByte_slice (p : Params) (c w : Word) (k : Nat) :
    crcByte p c (w.extractLsb' (8 * k) 8) =
      (List.range' (8 * k) 8).foldl (fun x i => crcBit p x (w.getLsbD i)) c := by
  have hdone : (w.extractLsb' (8 * k) 8).setWidth 32 >>> 8 = 0#32 := by
    apply BitVec.eq_of_getLsbD_eq
    intro i hi
    simp
  rw [crcByte, crcRound_iterate_xor, hdone, BitVec.xor_zero, List.range'_eq_map_range, List.foldl_map]
  refine List.foldl_ext _ _ _ fun x i hi => ?_
  have hbyte : i < 8 := List.mem_range.1 hi
  have hword : i < 32 := by omega
  simp [hbyte, hword]

theorem crcWord_leBytes {p : Params} (h : p.crcWordOrder = .leBytes) (c w : Word) :
    crcWord p c w = (List.range 32).foldl (fun x i => crcBit p x (w.getLsbD i)) c := by
  have hbytes : wordBytes p w =
      [w.extractLsb' (8 * 0) 8, w.extractLsb' (8 * 1) 8, w.extractLsb' (8 * 2) 8, w.extractLsb' (8 * 3) 8] := by
    rw [wordBytes, h]
  have hbits : List.range 32 =
      List.range' (8 * 0) 8 ++ List.range' (8 * 1) 8 ++ List.range' (8 * 2) 8 ++ List.range' (8 * 3) 8 := rfl
  rw [crcWord, hbytes, hbits]
  simp only [List.foldl_append, List.foldl_cons, List.foldl_nil, crcByte_slice]

/-- Settles O37: the two orders are `wordBytes`, and the bit-serial form is `crcWord_leBytes`. -/
theorem crcOfWordIsBitSerial : Obligations.CrcOfWordIsBitSerial := by
  intro p c w
  refine ⟨fun hbe => ?big, fun hle => ⟨?little, crcWord_leBytes hle c w⟩⟩
  case big => rw [wordBytes, hbe]
  case little => rw [wordBytes, hle]

/-- Settles O38: one word more is `crcAcc_snoc`; the four values with the defaults are closed and evaluated. -/
theorem crcOfSequences : Obligations.CrcOfSequences := by
  refine ⟨fun _ => rfl, fun p ws w => ?snoc, ?_, ?_, ?_, ?_⟩
  case snoc => rw [crcWords, crcAcc_snoc, crcAcc]
  all_goals decide +kernel

/-! ## One word fed, by the state of the framing (rules R111 to R118) -/

/-- Settles O39: CVRST writes these values and does not look at the validator it is given. -/
theorem cvrstResetsTheValidator : Obligations.CvrstResetsTheValidator := fun _ _ => rfl

/-- CVFEED completes for every word, and the validator is the only unit it touches (rules R112 and R118). -/
theorem exec_cvfeed (w : Word) (s : State) : exec (.cvfeed w) s = .next { s with cv := cvFeed s.params w s.cv } := rfl

/-- Settles O40: `feedIdle` is this update. -/
theorem feedInIdleTakesHeaderWord0 : Obligations.FeedInIdleTakesHeaderWord0 := by
  intro s w hidle
  rw [exec_cvfeed, cvFeed_idle hidle, feedIdle]

/-- Settles O41: `feedHdr1` is this update. -/
theorem feedInHdr1TakesSizeWord : Obligations.FeedInHdr1TakesSizeWord := by
  intro s w hhdr1
  rw [exec_cvfeed, cvFeed_hdr1 hhdr1, feedHdr1]

section Cases
variable {p : Params} {w : Word} {v : Validator}

theorem feedHcrc_terminator (hsize : v.size = 0#24) :
    feedHcrc p w v = { v with term := true, acc := p.crcInit, state := .idle } :=
  if_pos hsize

theorem feedHcrc_match (hsize : v.size ≠ 0#24) (hcrc : crcFinal p v.acc = w) :
    feedHcrc p w v = { v with hdrOk := true, acc := p.crcInit, state := .body } := by
  rw [feedHcrc, if_neg hsize, if_pos hcrc]

theorem feedHcrc_mismatch (hsize : v.size ≠ 0#24) (hcrc : crcFinal p v.acc ≠ w) :
    feedHcrc p w v =
      { v with hdrBad := true, hdrerr := satinc v.hdrerr, acc := p.crcInit, state := .body } := by
  rw [feedHcrc, if_neg hsize, if_neg hcrc]

theorem feedBcrc_match (hcrc : crcFinal p v.acc = w) :
    feedBcrc p w v =
      { v with bodyOk := true, blkcnt := satinc v.blkcnt, acc := p.crcInit, state := .idle } :=
  if_pos hcrc

theorem feedBcrc_mismatch (hcrc : crcFinal p v.acc ≠ w) :
    feedBcrc p w v =
      { v with bodyBad := true, bodyerr := satinc v.bodyerr, blkcnt := satinc v.blkcnt, acc := p.crcInit,
               state := .idle } :=
  if_neg hcrc

end Cases

/-- Settles O42: the three cases of `feedHcrc`. -/
theorem feedInHcrcChecksHeader : Obligations.FeedInHcrcChecksHeader := by
  intro s w hst
  rw [exec_cvfeed, cvFeed_hcrc hst]
  refine ⟨fun hsize => ?terminator, fun hsize hcrc => ?ok, fun hsize hcrc => ?bad⟩
  case terminator => rw [feedHcrc_terminator hsize]
  case ok => rw [feedHcrc_match hsize hcrc]
  case bad => rw [feedHcrc_mismatch hsize hcrc]

/-- A count that is not 0 does not wrap when one word is counted off. -/
theorem toNat_pred_add_one {r : BitVec 24} (h : 1 ≤ r.toNat) : (r - 1#24).toNat + 1 = r.toNat := by
  bv_omega

theorem pred_eq_zero_iff {r : BitVec 24} (h : 1 ≤ r.toNat) : r - 1#24 = 0#24 ↔ r.toNat = 1 := by
  rw [← toNat_pred_add_one h, BitVec.toNat_eq, BitVec.toNat_zero]
  omega

/-- CV_REMAIN is at least 1 in BODY in every state that meets the invariant (rule R116). -/
theorem one_le_remain_of_inv {s : State} (hinv : s.Inv) (hbody : s.cv.state = .body) : 1 ≤ s.cv.remain.toNat := by
  obtain ⟨_hparams, _hmem, _hcodec, hcv⟩ := hinv
  obtain ⟨_hhdrFlags, _hbodyFlags, _hidle, _hhdr1, _hhcrc, hinBody, _hbcrc⟩ := hcv
  obtain ⟨_hchecked, hpos, _hle⟩ := hinBody hbody
  exact hpos

/-- Settles O43: the invariant gives CV_REMAIN at least 1 in BODY, so the count is a true predecessor. -/
theorem feedInBodyCountsWords : Obligations.FeedInBodyCountsWords := by
  intro s w hinv hbody
  have hremain := one_le_remain_of_inv hinv hbody
  refine ⟨_, exec_cvfeed w s, ?_⟩
  rw [cvFeed_body hbody]
  refine ⟨rfl, rfl, toNat_pred_add_one hremain, ?state⟩
  case state => simp only [feedBody, pred_eq_zero_iff hremain]

/-- Settles O44: the two cases of `feedBcrc`. -/
theorem feedInBcrcChecksBody : Obligations.FeedInBcrcChecksBody := by
  intro s w hst
  rw [exec_cvfeed, cvFeed_bcrc hst]
  refine ⟨fun hcrc => ?ok, fun hcrc => ?bad⟩
  case ok => rw [feedBcrc_match hcrc]
  case bad => rw [feedBcrc_mismatch hcrc]

/-- Settles O47: CVFEED writes the validator only, and the two cases of each check differ in what the statement names
only. -/
theorem verdictsAreAdvisory : Obligations.VerdictsAreAdvisory := by
  refine ⟨fun s w => ⟨_, exec_cvfeed w s, rfl⟩, fun s good bad hst hsize hgood hbad => ?header,
    fun s good bad hst hgood hbad => ?body⟩
  case header =>
    refine ⟨_, _, exec_cvfeed good s, exec_cvfeed bad s, ?_⟩
    simp only [cvFeed_hcrc hst, feedHcrc_match hsize hgood, feedHcrc_mismatch hsize hbad]
  case body =>
    refine ⟨_, _, exec_cvfeed good s, exec_cvfeed bad s, ?_⟩
    simp only [cvFeed_bcrc hst, feedBcrc_match hgood, feedBcrc_mismatch hbad]

/-! ## A sequence of words fed

The words of a sequence are fed to the validator alone, so a run of CVFEEDs is a fold over the validator. -/

/-- The validator after the words of ws, one after another. -/
def feedAll (p : Params) (ws : List Word) (v : Validator) : Validator :=
  ws.foldl (fun v w => cvFeed p w v) v

@[simp] theorem feedAll_nil (p : Params) (v : Validator) : feedAll p [] v = v := rfl

@[simp] theorem feedAll_cons (p : Params) (w : Word) (ws : List Word) (v : Validator) :
    feedAll p (w :: ws) v = feedAll p ws (cvFeed p w v) := rfl

@[simp] theorem feedAll_append (p : Params) (ws us : List Word) (v : Validator) :
    feedAll p (ws ++ us) v = feedAll p us (feedAll p ws v) :=
  List.foldl_append

/-- A run of CVFEEDs completes and is `feedAll` on the validator. -/
theorem execAll_cvfeed (ws : List Word) (s : State) :
    execAll (ws.map .cvfeed) s = .next { s with cv := feedAll s.params ws s.cv } := by
  induction ws generalizing s with
  | nil => rfl
  | cons w ws ih => exact ih { s with cv := cvFeed s.params w s.cv }

/-- The first three words from IDLE go through HDR1 and HCRC, for a block and for the terminator alike. -/
theorem feedAll_three_from_idle {v : Validator} (hidle : v.state = .idle) (p : Params) (w0 w1 w2 : Word) :
    feedAll p [w0, w1, w2] v = feedHcrc p w2 (feedHdr1 p w1 (feedIdle p w0 v)) := by
  rw [feedAll_cons, cvFeed_idle hidle, feedAll_cons, cvFeed_hdr1 rfl, feedAll_cons, cvFeed_hcrc rfl, feedAll_nil]

/-- The three words of a block's header, from IDLE: one verdict over both whole header words, and the state in which a
body begins (rules R109 and R113 to R115). -/
theorem feedAll_header {v : Validator} {h1 : Word} (hidle : v.state = .idle) (hsize : h1.extractLsb' 0 24 ≠ 0#24)
    (p : Params) (h0 hcrc : Word) :
    feedAll p [h0, h1, hcrc] v =
      { v with
        state := .body
        hdrOk := decide (crcWords p [h0, h1] = hcrc), hdrBad := decide (crcWords p [h0, h1] ≠ hcrc)
        bodyOk := false, bodyBad := false, term := false
        blockid := h0.extractLsb' 24 8, size := h1.extractLsb' 0 24, remain := h1.extractLsb' 0 24
        acc := p.crcInit
        hdrerr := if crcWords p [h0, h1] ≠ hcrc then satinc v.hdrerr else v.hdrerr } := by
  have hacc : crcFinal p (feedHdr1 p h1 (feedIdle p h0 v)).acc = crcWords p [h0, h1] := rfl
  rw [feedAll_three_from_idle hidle]
  by_cases hok : crcWords p [h0, h1] = hcrc
  · rw [feedHcrc_match hsize (hacc.trans hok)]
    simp [hok, feedHdr1, feedIdle]
  · rw [feedHcrc_mismatch hsize (hacc ▸ hok)]
    simp [hok, feedHdr1, feedIdle]

/-- Settles O45: the flags of `feedAll_header`. -/
theorem headerVerdictCoversBothHeaderWords : Obligations.HeaderVerdictCoversBothHeaderWords := by
  intro s h0 h1 hcrc hidle hsize
  refine ⟨_, execAll_cvfeed [h0, h1, hcrc] s, ?_⟩
  rw [feedAll_header hidle hsize]
  exact ⟨rfl, rfl, rfl⟩

/-- The words of a body, counted off one by one: CV_REMAIN reaches 0 with the last of them, and the accumulator has
taken every one (rules R110 and R116). -/
theorem feedAll_body (p : Params) {body : List Word} {v : Validator} (hbody : v.state = .body) (hne : body ≠ [])
    (hlen : v.remain.toNat = body.length) :
    feedAll p body v = { v with state := .bcrc, remain := 0#24, acc := body.foldl (crcWord p) v.acc } := by
  induction body generalizing v with
  | nil => exact absurd rfl hne
  | cons w ws ih =>
    rw [List.length_cons] at hlen
    have hpos : 1 ≤ v.remain.toNat := by omega
    have hpred := toNat_pred_add_one hpos
    rw [feedAll_cons, cvFeed_body hbody]
    by_cases hlast : ws = []
    · have hzero : v.remain - 1#24 = 0#24 := (pred_eq_zero_iff hpos).2 (by simp [hlen, hlast])
      simp [hlast, feedBody, hzero]
    · have hmore : v.remain - 1#24 ≠ 0#24 := fun h =>
        hlast (List.length_eq_zero_iff.1 (by have := (pred_eq_zero_iff hpos).1 h; omega))
      have hstate : (feedBody p w v).state = .body := if_neg hmore
      have hrest : (feedBody p w v).remain.toNat = ws.length := by
        show (v.remain - 1#24).toNat = ws.length
        omega
      rw [ih hstate hlast hrest]
      rfl

/-- A body and its CRC word, from the state in which `feedAll_header` leaves the validator: one verdict over exactly the
body words, and the block is counted (rules R110, R116 and R117). -/
theorem feedAll_body_bcrc (p : Params) {body : List Word} {v : Validator} (hbody : v.state = .body)
    (hacc : v.acc = p.crcInit) (hok : v.bodyOk = false) (hbad : v.bodyBad = false) (hne : body ≠ [])
    (hlen : v.remain.toNat = body.length) (bcrc : Word) :
    feedAll p (body ++ [bcrc]) v =
      { v with
        state := .idle
        bodyOk := decide (crcWords p body = bcrc), bodyBad := decide (crcWords p body ≠ bcrc)
        remain := 0#24, acc := p.crcInit, blkcnt := satinc v.blkcnt
        bodyerr := if crcWords p body ≠ bcrc then satinc v.bodyerr else v.bodyerr } := by
  have hcrc : crcFinal p (body.foldl (crcWord p) v.acc) = crcWords p body := by rw [hacc]; rfl
  rw [feedAll_append, feedAll_body p hbody hne hlen, feedAll_cons, cvFeed_bcrc rfl, feedAll_nil]
  by_cases hmatch : crcWords p body = bcrc
  · rw [feedBcrc_match (hcrc.trans hmatch)]
    simp [hmatch, hbad]
  · rw [feedBcrc_mismatch (hcrc ▸ hmatch)]
    simp [hmatch, hok]

/-- Settles O46: the flags and the count of `feedAll_body_bcrc`. -/
theorem bodyVerdictCoversTheBody : Obligations.BodyVerdictCoversTheBody := by
  intro s body bcrc hbody hacc hok hbad hne hlen
  refine ⟨_, execAll_cvfeed (body ++ [bcrc]) s, ?_⟩
  rw [feedAll_body_bcrc s.params hbody hacc hok hbad hne hlen]
  exact ⟨rfl, rfl, rfl, rfl⟩

/-! ## A whole blob (rule R123) -/

/-- A whole block returns the framing to IDLE and counts itself and its mismatches. -/
theorem feedAll_block (p : Params) {b : CfgBlock} {v : Validator} (hidle : v.state = .idle) (hb : b.Framed) :
    (feedAll p b.words v).state = .idle ∧
      (feedAll p b.words v).blkcnt = satinc v.blkcnt ∧
      (feedAll p b.words v).hdrerr = (if b.hdrMismatch p then satinc v.hdrerr else v.hdrerr) ∧
      (feedAll p b.words v).bodyerr = (if b.bodyMismatch p then satinc v.bodyerr else v.bodyerr) := by
  obtain ⟨hlen, hne⟩ := hb
  have hsize : b.h1.extractLsb' 0 24 ≠ 0#24 := fun h =>
    hne (List.length_eq_zero_iff.1 (by rw [← hlen, h]; rfl))
  have hwords : b.words = [b.h0, b.h1, b.hcrc] ++ (b.body ++ [b.bcrc]) := rfl
  rw [hwords, feedAll_append, feedAll_header hidle hsize, feedAll_body_bcrc p rfl rfl rfl rfl hne hlen]
  simp [CfgBlock.hdrMismatch, CfgBlock.bodyMismatch]

/-- The counter after n more events, from any value: it counts up and stays at the maximum (00_scope.md rule R10). -/
theorem satinc_iterate_toNat (c : Word) (n : Nat) : (satinc^[n] c).toNat = min (c.toNat + n) 0xFFFFFFFF := by
  induction n with
  | zero =>
    have := c.isLt
    simp only [Function.iterate_zero, id, Nat.add_zero]
    omega
  | succ n ih =>
    rw [Function.iterate_succ_apply', satinc_toNat, ih]
    omega

/-- A counter that starts at 0 holds the saturated number of events. -/
theorem satinc_iterate_zero (n : Nat) : (satinc^[n] 0#32).toNat = saturated n := by
  rw [satinc_iterate_toNat, BitVec.toNat_zero, Nat.zero_add, saturated]

/-- Counting along a list: the head counts if it has the property, then the rest does. -/
theorem satinc_iterate_countP_cons {α : Type} (q : α → Bool) (a : α) (as : List α) (c : Word) :
    satinc^[(a :: as).countP q] c = satinc^[as.countP q] (if q a then satinc c else c) := by
  cases hq : q a with
  | true => rw [List.countP_cons_of_pos hq, Function.iterate_succ_apply, if_pos rfl]
  | false => rw [List.countP_cons_of_neg (by simp [hq]), if_neg (by simp)]

/-- Whole blocks one after another, by induction on them: each one begins in the IDLE the one before it returns to. -/
theorem feedAll_blocks (p : Params) {blocks : List CfgBlock} {v : Validator} (hidle : v.state = .idle)
    (hframed : ∀ b ∈ blocks, b.Framed) :
    (feedAll p (blocks.flatMap CfgBlock.words) v).state = .idle ∧
      (feedAll p (blocks.flatMap CfgBlock.words) v).blkcnt = satinc^[blocks.length] v.blkcnt ∧
      (feedAll p (blocks.flatMap CfgBlock.words) v).hdrerr =
        satinc^[blocks.countP (CfgBlock.hdrMismatch p)] v.hdrerr ∧
      (feedAll p (blocks.flatMap CfgBlock.words) v).bodyerr =
        satinc^[blocks.countP (CfgBlock.bodyMismatch p)] v.bodyerr := by
  induction blocks generalizing v with
  | nil => exact ⟨hidle, rfl, rfl, rfl⟩
  | cons b bs ih =>
    obtain ⟨hb, hbs⟩ := List.forall_mem_cons.1 hframed
    obtain ⟨hstate, hblk, hhdr, hbody⟩ := feedAll_block p hidle hb
    rw [List.flatMap_cons, feedAll_append, satinc_iterate_countP_cons, satinc_iterate_countP_cons, List.length_cons,
      Function.iterate_succ_apply, ← hblk, ← hhdr, ← hbody]
    exact ih hstate hbs

/-- The three words of the terminator, from IDLE: TERM is the only flag left, and no counter moves (rule R115). -/
theorem feedAll_terminator {v : Validator} {t1 : Word} (hidle : v.state = .idle) (hsize : t1.extractLsb' 0 24 = 0#24)
    (p : Params) (t0 globalCrc : Word) :
    feedAll p [t0, t1, globalCrc] v =
      { v with
        state := .idle
        hdrOk := false, hdrBad := false, bodyOk := false, bodyBad := false, term := true
        blockid := t0.extractLsb' 24 8, size := 0#24, remain := 0#24, acc := p.crcInit } := by
  rw [feedAll_three_from_idle hidle, feedHcrc_terminator hsize, feedHdr1, feedIdle, hsize]

/-- Settles O48: CVRST starts the counters at 0 in IDLE, `feedAll_blocks` counts the blocks, and the terminator leaves
the counters as they are. -/
theorem wholeBlobOutcome : Obligations.WholeBlobOutcome := by
  intro s blocks t0 t1 globalCrc hframed hterm
  have hidle : (cvReset s.params s.cv).state = .idle := rfl
  obtain ⟨hstate, hblk, hhdr, hbody⟩ := feedAll_blocks s.params hidle hframed
  refine ⟨_, execAll_cvfeed (blobWords blocks t0 t1 globalCrc) { s with cv := cvReset s.params s.cv }, ?_⟩
  rw [blobWords, feedAll_append, feedAll_terminator hstate hterm]
  refine ⟨rfl, rfl, ?blockCount, ?headerErrors, ?bodyErrors, rfl, rfl, rfl, rfl, rfl⟩
  case blockCount => exact (congrArg _ hblk).trans (satinc_iterate_zero _)
  case headerErrors => exact (congrArg _ hhdr).trans (satinc_iterate_zero _)
  case bodyErrors => exact (congrArg _ hbody).trans (satinc_iterate_zero _)

end Sys2Proof.Proofs

/-! PROOFS. The statements of 60_exceptions.md. -/

namespace Sys2Proof.Proofs
open Sys2Proof Sys2Proof.Machine

/-! ## The effect of a rejection (rule R127) -/

/-- Settles O24: each of the four commands answers `cmdError`, whose effect is `cmdError_eq`. -/
theorem raisingAnErrorHasExactlyThisEffect : Obligations.RaisingAnErrorHasExactlyThisEffect := by
  intro s i code h
  rw [← cmdError_eq]
  obtain ⟨⟨o, g, rfl⟩ | ⟨o, g, rfl⟩, rfl⟩ | ⟨w, wo, bo, hi, hcheck⟩ := h
  · rfl -- OP 6 and 7
  · rfl -- OP 8 to 15
  · exact exec_of_checkField_some hi hcheck -- ENC and DEC

/-- A command word with a reserved OP, or with an ENC or DEC whose descriptor is not legal, is rejected. -/
theorem execWrCmd_rejected {d : Word} {s : State}
    (h : 6 ≤ (d.extractLsb' 28 4).toNat ∨ ((d.extractLsb' 28 4 = 0x1#4 ∨ d.extractLsb' 28 4 = 0x2#4) ∧
      ¬LegalField s.params.nBufWords (d.extractLsb' 21 7) (d.extractLsb' 5 16) (d.extractLsb' 0 5))) :
    ∃ code, execWrCmd d s = .next (cmdError code s) := by
  obtain hop | ⟨hop, hillegal⟩ := h
  · exact ⟨_, execWrCmd_reserved hop s⟩
  · obtain ⟨code, hcode⟩ := Option.ne_none_iff_exists'.1 (mt (checkField_none_iff _ _ _).1 hillegal)
    rw [execWrCmd_eq_exec_decodeCmd]
    exact ⟨code, exec_of_checkField_some (hop.imp caseCmd_enc caseCmd_dec) hcode⟩

/-- Bit 0 of STATUS is ERR (10_state.md rule R24). -/
theorem readReg_status_err (s : State) : (readReg s 0x001#17).getLsbD 0 = s.codec.err := by
  have hread : readReg s 0x001#17 = statusWord s.codec := rfl
  rw [hread, statusWord, BitVec.getLsbD_setWidth, BitVec.getLsbD_append]
  simp

/-! ## Nothing inside the window stops the block (rule R141)

What the decoder accepts is well-formed, and a well-formed instruction completes. -/

theorem decodeCodecWrite_wf (p : Params) (off : Offset) (d : Word) : (decodeCodecWrite off d).wf p = true := by
  unfold decodeCodecWrite
  split_ifs <;> rfl

theorem decodeCvWrite_wf (p : Params) (off : Offset) (d : Word) : (decodeCvWrite off d).wf p = true := by
  unfold decodeCvWrite
  split_ifs <;> rfl

/-- The index of a write to BUF is the distance from 0x100, cut to 16 bits, so it is not above that distance. -/
theorem decodeWrite_wf {p : Params} {off : Offset} {d : Word} {i : Instr} (h : decodeWrite p off d = .ok i) :
    i.wf p = true := by
  by_cases hbuf : 0x100 ≤ off.toNat
  · rw [decodeWrite_of_ge hbuf] at h
    split at h
    case isTrue hin =>
      cases h
      have hlt := (inWindow_iff p off).1 hin
      exact decide_eq_true (by bv_omega)
    case isFalse => cases h
  · unfold decodeWrite at h
    split_ifs at h
    · cases h; exact decodeCodecWrite_wf p off d
    · cases h; exact decodeCvWrite_wf p off d
    · cases h; rfl -- reserved, 0x020 to 0x03F
    · cases h; rfl -- reserved, 0x040 to 0x07F
    · cases h; rfl -- reserved, 0x080 to 0x0FF
    · omega

/-- What the decoder answers for a transaction has a meaning in the block. -/
theorem decodeTxn_wf {p : Params} {t : Txn} {i : Instr} (h : decodeTxn p t = .ok i) : i.wf p = true := by
  cases t with
  | write off d => exact decodeWrite_wf h
  | read off =>
    simp only [decodeTxn] at h
    split at h
    case isTrue hin => cases h; exact hin
    case isFalse => cases h

/-- A well-formed instruction answers a next state, in every state (60_exceptions.md rule R141). -/
theorem exec_completes {i : Instr} {s : State} (h : i.wf s.params = true) : ∃ t, exec i s = .next t := by
  cases i with
  | rd off => exact ⟨_, execRd_inside ((inWindow_iff s.params off).1 h)⟩
  | wrBuf k d => exact ⟨_, execWrBuf_inside (of_decide_eq_true h) d⟩
  | wrCmd d => exact (exec_decodeCmd_completes d s).imp fun _ ht => (execWrCmd_eq_exec_decodeCmd d s).trans ht
  | enc w wo bo => exact (execEnc_effect w wo bo s).imp fun _ ht => ht.1
  | dec w wo bo => exact (execDec_effect w wo bo s).imp fun _ ht => ht.1
  | _ => exact ⟨_, rfl⟩

/-- The step completes for every transaction that the decoder does not reject. -/
theorem step_completes_of_not_outsideWindow {s : State} {t : Txn} {rest : List Event}
    (hp : s.pending = .access t :: rest) (h : decode s.params (.transaction t) ≠ .error .outsideWindow) :
    ∃ u, step s = .next u := by
  rw [step_of_access hp]
  cases hdec : decode s.params (.transaction t) with
  | error e => cases e; exact absurd hdec h
  | ok i =>
    simp only [access, hdec]
    exact exec_completes (s := { s with pending := rest }) (decodeTxn_wf hdec)

/-- The decoder rejects a transaction, of either direction, exactly outside the window (40_host_access.md rule
R84). -/
theorem decode_txn_error_iff {t : Txn} {off : Offset} (ht : t = .read off ∨ ∃ d, t = .write off d) (p : Params) :
    decode p (.transaction t) = .error .outsideWindow ↔ 0x100 + p.nBufWords ≤ off.toNat := by
  obtain rfl | ⟨d, rfl⟩ := ht
  · exact decode_read_error_iff p off
  · exact decodeWrite_error_iff p off d

/-- Settles O11: the step completes or is refused as the decoder accepts or rejects, and a rejected command completes
with ERR set. -/
theorem onlyAccessesOutsideWindowAreRefused : Obligations.OnlyAccessesOutsideWindowAreRefused := by
  intro s t rest off hp ht
  have herr := decode_txn_error_iff ht s.params
  refine ⟨fun hin => ?inside, fun hout => ?outside, fun d hcmd hrej => ?rejected⟩
  case inside => exact step_completes_of_not_outsideWindow hp (mt herr.1 (not_le.2 hin))
  case outside => exact step_of_decode_error hp (herr.2 hout)
  case rejected =>
    subst hcmd
    obtain ⟨code, hcode⟩ := execWrCmd_rejected (s := { s with pending := rest }) hrej
    exact ⟨_, (step_of_access hp).trans hcode, readReg_status_err _⟩

end Sys2Proof.Proofs

/-! PROOFS. The statements of 70_reset_and_hazards.md. -/

namespace Sys2Proof.Proofs
open Sys2Proof Sys2Proof.Machine

/-- The buffer after reset is the one CLRBUF leaves, so the laws of `clearBuf` give its length and its words. -/
theorem resetWith_buf_eq_clearBuf (p : Params) : (State.resetWith p).codec.buf = clearBuf p := rfl

@[simp] theorem readReg_bufsize (s : State) : readReg s 0x009#17 = BitVec.ofNat 32 s.params.nBufWords := rfl

/-- Settles O56: every scalar register is a field of the reset record; the buffer is the cleared one, and BUFSIZE shows
the parameter, which the reset state holds. -/
theorem resetValues : Obligations.ResetValues := by
  intro p
  refine ⟨rfl, rfl, rfl, rfl, rfl, rfl, rfl, ?length, ?words, rfl, rfl, rfl, rfl, rfl, rfl, rfl, rfl, rfl, rfl, rfl, rfl,
    rfl, ?bufsize⟩
  case length => rw [resetWith_buf_eq_clearBuf, length_clearBuf]
  case words => intro k _; rw [resetWith_buf_eq_clearBuf, readBuf_clearBuf]
  case bufsize => rw [readReg_bufsize, resetWith_params]

end Sys2Proof.Proofs

/-! PROOFS. Decode and encode (30_encoding.md): the two directions of the encoding, and the assembler's. -/

namespace Sys2Proof.Proofs
open Sys2Proof Sys2Proof.Machine

/-! ## Words put together from slices -/

/-- A concatenation as a number: the low part is below the weight of the high part. -/
theorem toNat_append_eq_add {m n : Nat} (a : BitVec m) (b : BitVec n) :
    (a ++ b).toNat = 2 ^ n * a.toNat + b.toNat := by
  rw [BitVec.toNat_append, ← Nat.shiftLeft_add_eq_or_of_lt b.isLt, Nat.shiftLeft_eq, Nat.mul_comm]

/-- The values with a fixed high part are 2^n in a row: the rows of the opcode table are such ranges of offsets. -/
theorem toNat_append_bounds {m n : Nat} (a : BitVec m) (b : BitVec n) :
    2 ^ n * a.toNat ≤ (a ++ b).toNat ∧ (a ++ b).toNat < 2 ^ n * a.toNat + 2 ^ n := by
  rw [toNat_append_eq_add]
  exact ⟨Nat.le_add_right _ _, Nat.add_lt_add_left b.isLt _⟩

/-- A value in the range of a high part is that high part and its own low bits. -/
theorem append_slice_of_bounds {m n : Nat} (a : BitVec m) {x : BitVec (m + n)} (hlo : 2 ^ n * a.toNat ≤ x.toNat)
    (hhi : x.toNat < 2 ^ n * a.toNat + 2 ^ n) : a ++ x.extractLsb' 0 n = x := by
  have hmod : x.toNat % 2 ^ n = x.toNat - 2 ^ n * a.toNat := by
    obtain ⟨r, hr⟩ := Nat.exists_eq_add_of_le hlo
    rw [hr, Nat.mul_add_mod, Nat.mod_eq_of_lt (by omega), Nat.add_sub_cancel_left]
  apply BitVec.eq_of_toNat_eq
  rw [toNat_append_eq_add, BitVec.extractLsb'_toNat, Nat.shiftRight_zero, hmod]
  omega

/-- A command word is its OP and its bits [27:0]. -/
theorem cmdWord_slices (d : Word) : cmdWord (d.extractLsb' 28 4) (d.extractLsb' 0 28) = d :=
  (BitVec.extractLsb'_append_extractLsb'_eq_extractLsb' rfl).trans (slice_whole d)

/-- A command word is its OP and its descriptor (30_encoding.md rule R64). -/
theorem fieldWord_slices (d : Word) :
    fieldWord (d.extractLsb' 28 4) (d.extractLsb' 21 7) (d.extractLsb' 5 16) (d.extractLsb' 0 5) = d := by
  have hop : d.extractLsb' 28 4 ++ d.extractLsb' 21 7 = d.extractLsb' 21 11 :=
    BitVec.extractLsb'_append_extractLsb'_eq_extractLsb' rfl
  have hwidth : d.extractLsb' 21 11 ++ d.extractLsb' 5 16 = d.extractLsb' 5 27 :=
    BitVec.extractLsb'_append_extractLsb'_eq_extractLsb' rfl
  have hwhole : d.extractLsb' 5 27 ++ d.extractLsb' 0 5 = d.extractLsb' 0 32 :=
    BitVec.extractLsb'_append_extractLsb'_eq_extractLsb' rfl
  rw [fieldWord, hop, hwidth, hwhole, slice_whole]

/-! ## Writes at the ignored offsets, one equation per row of the opcode table -/

section Rows
variable {off : Offset} (p : Params) (d : Word)

/-- Above the registers that software writes, the codec's offsets are two rows. -/
theorem decodeCodecWrite_of_ge (h : 0x006 ≤ off.toNat) :
    decodeCodecWrite off d =
      if off.toNat < 0x008 then .wrRes (off.extractLsb' 0 1) d else .wrViolBufsize (off.extractLsb' 0 3) d := by
  have hne : ∀ c : Offset, c.toNat < 0x006 → off ≠ c := by
    rintro c hc rfl
    omega
  simp only [decodeCodecWrite, hne 0x000#17 (by decide), hne 0x001#17 (by decide), hne 0x002#17 (by decide),
    hne 0x003#17 (by decide), hne 0x004#17 (by decide), hne 0x005#17 (by decide), if_false]

/-- Above CV_STATUS, the validator's offsets are three rows. -/
theorem decodeCvWrite_of_ge (h : 0x012 ≤ off.toNat) :
    decodeCvWrite off d =
      if off.toNat < 0x014 then .wrCvSizeRemain (off.extractLsb' 0 1) d
      else if off.toNat < 0x018 then .wrCvAccCounters (off.extractLsb' 0 2) d
      else .wrReserved018 (off.extractLsb' 0 3) d := by
  have hne : ∀ c : Offset, c.toNat < 0x012 → off ≠ c := by
    rintro c hc rfl
    omega
  simp only [decodeCvWrite, hne 0x010#17 (by decide), hne 0x011#17 (by decide), if_false]

theorem decodeWrite_res (h : 0x006 ≤ off.toNat ∧ off.toNat < 0x008) :
    decodeWrite p off d = .ok (.wrRes (off.extractLsb' 0 1) d) := by
  rw [decodeWrite, if_pos (by omega), decodeCodecWrite_of_ge d h.1, if_pos h.2]

theorem decodeWrite_violBufsize (h : 0x008 ≤ off.toNat ∧ off.toNat < 0x010) :
    decodeWrite p off d = .ok (.wrViolBufsize (off.extractLsb' 0 3) d) := by
  rw [decodeWrite, if_pos (by omega), decodeCodecWrite_of_ge d (by omega), if_neg (by omega)]

theorem decodeWrite_cv (h : 0x010 ≤ off.toNat ∧ off.toNat < 0x020) :
    decodeWrite p off d = .ok (decodeCvWrite off d) := by
  rw [decodeWrite, if_neg (by omega), if_pos h.2]

theorem decodeWrite_cvSizeRemain (h : 0x012 ≤ off.toNat ∧ off.toNat < 0x014) :
    decodeWrite p off d = .ok (.wrCvSizeRemain (off.extractLsb' 0 1) d) := by
  rw [decodeWrite_cv p d (by omega), decodeCvWrite_of_ge d h.1, if_pos h.2]

theorem decodeWrite_cvAccCounters (h : 0x014 ≤ off.toNat ∧ off.toNat < 0x018) :
    decodeWrite p off d = .ok (.wrCvAccCounters (off.extractLsb' 0 2) d) := by
  rw [decodeWrite_cv p d (by omega), decodeCvWrite_of_ge d (by omega), if_neg (by omega), if_pos h.2]

theorem decodeWrite_reserved018 (h : 0x018 ≤ off.toNat ∧ off.toNat < 0x020) :
    decodeWrite p off d = .ok (.wrReserved018 (off.extractLsb' 0 3) d) := by
  rw [decodeWrite_cv p d (by omega), decodeCvWrite_of_ge d (by omega), if_neg (by omega), if_neg (by omega)]

theorem decodeWrite_reserved020 (h : 0x020 ≤ off.toNat ∧ off.toNat < 0x040) :
    decodeWrite p off d = .ok (.wrReserved020 (off.extractLsb' 0 5) d) := by
  rw [decodeWrite, if_neg (by omega), if_neg (by omega), if_pos h.2]

theorem decodeWrite_reserved040 (h : 0x040 ≤ off.toNat ∧ off.toNat < 0x080) :
    decodeWrite p off d = .ok (.wrReserved040 (off.extractLsb' 0 6) d) := by
  rw [decodeWrite, if_neg (by omega), if_neg (by omega), if_neg (by omega), if_pos h.2]

theorem decodeWrite_reserved080 (h : 0x080 ≤ off.toNat ∧ off.toNat < 0x100) :
    decodeWrite p off d = .ok (.wrReserved080 (off.extractLsb' 0 7) d) := by
  rw [decodeWrite, if_neg (by omega), if_neg (by omega), if_neg (by omega), if_neg (by omega), if_pos h.2]

end Rows

/-! ## Decode of encode -/

theorem decodeCmd_fieldWord_enc (w : BitVec 7) (wo : BitVec 16) (bo : BitVec 5) :
    decodeCmd (fieldWord 0x1#4 w wo bo) = .enc w wo bo := by
  rw [decodeCmd, caseCmd_enc (fieldWord_op _ w wo bo), fieldWord_width, fieldWord_wordOff, fieldWord_bitOff]

theorem decodeCmd_fieldWord_dec (w : BitVec 7) (wo : BitVec 16) (bo : BitVec 5) :
    decodeCmd (fieldWord 0x2#4 w wo bo) = .dec w wo bo := by
  rw [decodeCmd, caseCmd_dec (fieldWord_op _ w wo bo), fieldWord_width, fieldWord_wordOff, fieldWord_bitOff]

/-- OP 6 and 7 are the high part 3 and CMD[28]. -/
theorem decodeCmd_cmdWord_illegal67 (o : BitVec 1) (ign : BitVec 28) :
    decodeCmd (cmdWord (0x3#3 ++ o) ign) = .illegal67 o ign := by
  have hop : 0x6 ≤ (0x3#3 ++ o).toNat ∧ (0x3#3 ++ o).toNat < 0x8 := toNat_append_bounds 0x3#3 o
  rw [decodeCmd, caseCmd_reserved (by rw [cmdWord_op]; exact hop.1), cmdWord_op, if_pos (by omega), cmdWord_low,
    cmdWord_op_part, slice_low]

/-- OP 8 to 15 are the high part 1 and CMD[30:28]. -/
theorem decodeCmd_cmdWord_illegal8F (o : BitVec 3) (ign : BitVec 28) :
    decodeCmd (cmdWord (0x1#1 ++ o) ign) = .illegal8F o ign := by
  have hop : 0x8 ≤ (0x1#1 ++ o).toNat ∧ (0x1#1 ++ o).toNat < 0x10 := toNat_append_bounds 0x1#1 o
  rw [decodeCmd, caseCmd_reserved (by rw [cmdWord_op]; omega), cmdWord_op, if_neg (by omega), cmdWord_low,
    cmdWord_op_part, slice_low]

/-- Settles O2: a command word gives its slices back; a write to an ignored offset lies in the range of its row, whose
operand is the low part of the offset. -/
theorem decodeOfEncodeIsTheInstruction : Obligations.DecodeOfEncodeIsTheInstruction := by
  intro p i _ hwf
  cases i with
  | rd off => exact if_pos hwf
  | wrBuf k d =>
    have hk : k.toNat < p.nBufWords := of_decide_eq_true hwf
    exact decodeWrite_buf hk (by bv_omega) d
  | wrRes o d =>
    exact (decodeWrite_res p d (toNat_append_bounds 0x003#16 o)).trans (by rw [slice_low])
  | wrViolBufsize o d =>
    exact (decodeWrite_violBufsize p d (toNat_append_bounds 0x001#14 o)).trans (by rw [slice_low])
  | wrCvSizeRemain o d =>
    exact (decodeWrite_cvSizeRemain p d (toNat_append_bounds 0x009#16 o)).trans (by rw [slice_low])
  | wrCvAccCounters o d =>
    exact (decodeWrite_cvAccCounters p d (toNat_append_bounds 0x005#15 o)).trans (by rw [slice_low])
  | wrReserved018 o d =>
    exact (decodeWrite_reserved018 p d (toNat_append_bounds 0x003#14 o)).trans (by rw [slice_low])
  | wrReserved020 o d =>
    exact (decodeWrite_reserved020 p d (toNat_append_bounds 0x001#12 o)).trans (by rw [slice_low])
  | wrReserved040 o d =>
    exact (decodeWrite_reserved040 p d (toNat_append_bounds 0x001#11 o)).trans (by rw [slice_low])
  | wrReserved080 o d =>
    exact (decodeWrite_reserved080 p d (toNat_append_bounds 0x001#10 o)).trans (by rw [slice_low])
  | nop ign => exact congrArg Except.ok ((caseCmd_nop (cmdWord_op _ ign)).trans (by rw [cmdWord_low]))
  | beginWrite ign => exact congrArg Except.ok ((caseCmd_begin (cmdWord_op _ ign)).trans (by rw [cmdWord_low]))
  | clrbuf ign => exact congrArg Except.ok ((caseCmd_clrbuf (cmdWord_op _ ign)).trans (by rw [cmdWord_low]))
  | cvrst ign => exact congrArg Except.ok ((caseCmd_cvrst (cmdWord_op _ ign)).trans (by rw [cmdWord_low]))
  | enc w wo bo => exact congrArg Except.ok (decodeCmd_fieldWord_enc w wo bo)
  | dec w wo bo => exact congrArg Except.ok (decodeCmd_fieldWord_dec w wo bo)
  | illegal67 o ign => exact congrArg Except.ok (decodeCmd_cmdWord_illegal67 o ign)
  | illegal8F o ign => exact congrArg Except.ok (decodeCmd_cmdWord_illegal8F o ign)
  | _ => rfl -- a write to a single register

/-! ## Encode of decode -/

theorem decodeCmd_wf (p : Params) (d : Word) : (decodeCmd d).wf p = true := by
  unfold decodeCmd caseCmd
  split_ifs <;> rfl

/-- The cases of 30_encoding.md rule R68 cover every OP. -/
theorem op_cases (d : Word) :
    d.extractLsb' 28 4 = 0x0#4 ∨ d.extractLsb' 28 4 = 0x1#4 ∨ d.extractLsb' 28 4 = 0x2#4 ∨ d.extractLsb' 28 4 = 0x3#4 ∨
      d.extractLsb' 28 4 = 0x4#4 ∨ d.extractLsb' 28 4 = 0x5#4 ∨ 6 ≤ (d.extractLsb' 28 4).toNat := by
  generalize d.extractLsb' 28 4 = op
  revert op
  decide

/-- The two rows of reserved OPs leave out only the high part of OP that their words have in common. -/
theorem encode_decodeCmd_reserved {d : Word} (h : 6 ≤ (d.extractLsb' 28 4).toNat) :
    encode (decodeCmd d) = .command d := by
  obtain ⟨op, low, rfl⟩ : ∃ op low, d = cmdWord op low := ⟨_, _, (cmdWord_slices d).symm⟩
  rw [decodeCmd, caseCmd_reserved h]
  rw [cmdWord_op] at h ⊢
  rw [cmdWord_low, cmdWord_op_part, cmdWord_op_part]
  split
  case isTrue h7 =>
    have hop : 0x3#3 ++ op.extractLsb' 0 1 = op := append_slice_of_bounds 0x3#3 h (Nat.lt_succ_of_le h7)
    rw [encode, hop]
  case isFalse h8 =>
    have hop : 0x1#1 ++ op.extractLsb' 0 3 = op := append_slice_of_bounds 0x1#1 (Nat.lt_of_not_le h8) op.isLt
    rw [encode, hop]

/-- A command word is the code of the command it stands for. -/
theorem encode_decodeCmd (d : Word) : encode (decodeCmd d) = .command d := by
  have hcmd := cmdWord_slices d
  have hfield := fieldWord_slices d
  obtain h | h | h | h | h | h | h := op_cases d
  · rw [h] at hcmd
    rw [decodeCmd, caseCmd_nop h, encode, hcmd]
  · rw [h] at hfield
    rw [decodeCmd, caseCmd_enc h, encode, hfield]
  · rw [h] at hfield
    rw [decodeCmd, caseCmd_dec h, encode, hfield]
  · rw [h] at hcmd
    rw [decodeCmd, caseCmd_begin h, encode, hcmd]
  · rw [h] at hcmd
    rw [decodeCmd, caseCmd_clrbuf h, encode, hcmd]
  · rw [h] at hcmd
    rw [decodeCmd, caseCmd_cvrst h, encode, hcmd]
  · exact encode_decodeCmd_reserved h

/-- A codec write keeps its offset: the single registers are tests for it, the two rows keep its low bits. -/
theorem encode_decodeCodecWrite {off : Offset} (h : off.toNat < 0x010) (d : Word) :
    encode (decodeCodecWrite off d) = .transaction (.write off d) := by
  by_cases hrow : 0x006 ≤ off.toNat
  · rw [decodeCodecWrite_of_ge d hrow]
    split
    case isTrue hres =>
      have hoff : 0x003#16 ++ off.extractLsb' 0 1 = off := append_slice_of_bounds 0x003#16 hrow hres
      rw [encode, hoff]
    case isFalse hviol =>
      have hoff : 0x001#14 ++ off.extractLsb' 0 3 = off := append_slice_of_bounds 0x001#14 (Nat.le_of_not_lt hviol) h
      rw [encode, hoff]
  · obtain rfl | rfl | rfl | rfl | rfl | rfl : off = 0x000#17 ∨ off = 0x001#17 ∨ off = 0x002#17 ∨ off = 0x003#17 ∨
        off = 0x004#17 ∨ off = 0x005#17 := by bv_omega
    all_goals rfl

/-- A validator write keeps its offset. -/
theorem encode_decodeCvWrite {off : Offset} (hlo : 0x010 ≤ off.toNat) (hhi : off.toNat < 0x020) (d : Word) :
    encode (decodeCvWrite off d) = .transaction (.write off d) := by
  by_cases hrow : 0x012 ≤ off.toNat
  · rw [decodeCvWrite_of_ge d hrow]
    split_ifs with hsize hacc
    · have hoff : 0x009#16 ++ off.extractLsb' 0 1 = off := append_slice_of_bounds 0x009#16 hrow hsize
      rw [encode, hoff]
    · have hoff : 0x005#15 ++ off.extractLsb' 0 2 = off :=
        append_slice_of_bounds 0x005#15 (Nat.le_of_not_lt hsize) hacc
      rw [encode, hoff]
    · have hoff : 0x003#14 ++ off.extractLsb' 0 3 = off :=
        append_slice_of_bounds 0x003#14 (Nat.le_of_not_lt hacc) hhi
      rw [encode, hoff]
  · obtain rfl | rfl : off = 0x010#17 ∨ off = 0x011#17 := by bv_omega
    · rfl
    · rfl

theorem params_wf_iff (p : Params) : p.wf = true ↔ 3 ≤ p.nBufWords ∧ p.nBufWords ≤ 65536 := by
  simp only [Params.wf, Bool.and_eq_true, decide_eq_true_iff]

/-- A write keeps its offset and its data, row by row. -/
theorem encode_decodeWrite {p : Params} {off : Offset} {d : Word} {i : Instr} (hp : p.wf = true)
    (h : decodeWrite p off d = .ok i) : encode i = .transaction (.write off d) := by
  unfold decodeWrite at h
  split_ifs at h with hcodec hcv h020 h040 h080 hin
  · cases h
    exact encode_decodeCodecWrite hcodec d
  · cases h
    exact encode_decodeCvWrite (Nat.le_of_not_lt hcodec) hcv d
  · cases h
    have hoff : 0x001#12 ++ off.extractLsb' 0 5 = off := append_slice_of_bounds 0x001#12 (Nat.le_of_not_lt hcv) h020
    rw [encode, hoff]
  · cases h
    have hoff : 0x001#11 ++ off.extractLsb' 0 6 = off := append_slice_of_bounds 0x001#11 (Nat.le_of_not_lt h020) h040
    rw [encode, hoff]
  · cases h
    have hoff : 0x001#10 ++ off.extractLsb' 0 7 = off := append_slice_of_bounds 0x001#10 (Nat.le_of_not_lt h040) h080
    rw [encode, hoff]
  · cases h
    rw [inWindow_iff] at hin
    rw [params_wf_iff] at hp
    have hoff : 0x100#17 + ((off - 0x100#17).setWidth 16).setWidth 17 = off := by bv_omega
    rw [encode, hoff]

/-- Settles O3: well-formedness is `decodeTxn_wf`; every row keeps the part of the code that it does not fix, and legal
parameters keep the index of a buffer word within its 16 bits. -/
theorem encodeOfDecodeIsTheCode : Obligations.EncodeOfDecodeIsTheCode := by
  intro p c i hp h
  match c with
  | .command d =>
    cases h
    exact ⟨decodeCmd_wf p d, encode_decodeCmd d⟩
  | .transaction (.write off d) => exact ⟨decodeTxn_wf (t := .write off d) h, encode_decodeWrite hp h⟩
  | .transaction (.read off) =>
    refine ⟨decodeTxn_wf (t := .read off) h, ?_⟩
    simp only [decode, decodeTxn] at h
    split at h
    · cases h
      rfl
    · cases h

/-! ## The assembler's shifts and ors (rule R75) -/

/-- What the assembler builds by shifts and ors is the word with those fields. -/
theorem asmFieldWord_eq_fieldWord (op : BitVec 4) (w : BitVec 7) (wo : BitVec 16) (bo : BitVec 5) :
    asmFieldWord op.toNat w.toNat wo.toNat bo.toNat = fieldWord op w wo bo := by
  have hnat : (fieldWord op w wo bo).toNat =
      (op.toNat <<< 28) ||| (w.toNat <<< 21) ||| (wo.toNat <<< 5) ||| bo.toNat := by
    simp only [fieldWord, BitVec.toNat_append, Nat.shiftLeft_or_distrib, ← Nat.shiftLeft_add]
  rw [asmFieldWord, ← hnat, BitVec.ofNat_toNat, BitVec.setWidth_eq]

theorem descriptorOk_iff (w wo bo : Nat) : descriptorOk w wo bo = true ↔ 1 ≤ w ∧ w ≤ 64 ∧ wo ≤ 65535 ∧ bo ≤ 31 := by
  simp only [descriptorOk, Bool.and_eq_true, decide_eq_true_iff, and_assoc]

/-- Operands that the assembler accepts fit their fields. -/
theorem fields_of_accepted {w wo bo : Nat} (h : 1 ≤ w ∧ w ≤ 64 ∧ wo ≤ 65535 ∧ bo ≤ 31) :
    ∃ (width : BitVec 7) (wordOff : BitVec 16) (bitOff : BitVec 5),
      w = width.toNat ∧ wo = wordOff.toNat ∧ bo = bitOff.toNat :=
  ⟨BitVec.ofNat 7 w, BitVec.ofNat 16 wo, BitVec.ofNat 5 bo, by bv_omega, by bv_omega, by bv_omega⟩

/-- Settles O7: accepted operands are fields, `asmFieldWord_eq_fieldWord` gives the words, and the decoder reads their
fields back. -/
theorem assembledFieldCommandsDecode : Obligations.AssembledFieldCommandsDecode := by
  intro w wo bo
  refine ⟨fun h => ?accepted, fun h => ?refused⟩
  case accepted =>
    have hok := (descriptorOk_iff w wo bo).2 h
    obtain ⟨w, wo, bo, rfl, rfl, rfl⟩ := fields_of_accepted h
    simp only [BitVec.ofNat_toNat, BitVec.setWidth_eq]
    refine ⟨_, _, if_pos hok, ?enc, if_pos hok, ?dec⟩
    case enc =>
      exact (congrArg decodeCmd (asmFieldWord_eq_fieldWord 0x1#4 w wo bo)).trans (decodeCmd_fieldWord_enc w wo bo)
    case dec =>
      exact (congrArg decodeCmd (asmFieldWord_eq_fieldWord 0x2#4 w wo bo)).trans (decodeCmd_fieldWord_dec w wo bo)
  case refused =>
    have hok := mt (descriptorOk_iff w wo bo).1 h
    exact ⟨if_neg hok, if_neg hok⟩

/-! ## Disassembly (rule R78) -/

theorem legalWidth_iff (w : BitVec 7) : legalWidth w = true ↔ 1 ≤ w.toNat ∧ w.toNat ≤ 64 := by
  simp only [legalWidth, Bool.and_eq_true, decide_eq_true_iff]

section Disassemble
variable {d : Word}

theorem disassemble_enc (h : d.extractLsb' 28 4 = 0x1#4) :
    disassemble d =
      if 1 ≤ (d.extractLsb' 21 7).toNat ∧ (d.extractLsb' 21 7).toNat ≤ 64 then
        .enc (d.extractLsb' 21 7).toNat (d.extractLsb' 5 16).toNat (d.extractLsb' 0 5).toNat
      else .wr .cmd d := by
  rw [disassemble, caseCmd_enc h]
  simp only [legalWidth_iff]

theorem disassemble_dec (h : d.extractLsb' 28 4 = 0x2#4) :
    disassemble d =
      if 1 ≤ (d.extractLsb' 21 7).toNat ∧ (d.extractLsb' 21 7).toNat ≤ 64 then
        .dec (d.extractLsb' 21 7).toNat (d.extractLsb' 5 16).toNat (d.extractLsb' 0 5).toNat
      else .wr .cmd d := by
  rw [disassemble, caseCmd_dec h]
  simp only [legalWidth_iff]

theorem disassemble_reserved (h : 6 ≤ (d.extractLsb' 28 4).toNat) : disassemble d = .wr .cmd d := by
  rw [disassemble, caseCmd_reserved h, ite_self]

/-- A command word whose bits [27:0] are 0 is its OP and zeros. -/
theorem eq_cmdWord_zero {op : BitVec 4} (hop : d.extractLsb' 28 4 = op) (hlow : d.extractLsb' 0 28 = 0#28) :
    d = cmdWord op 0#28 := by
  rw [← hop, ← hlow, cmdWord_slices]

/-- The two bounds of the assembler that the fields of a word always meet. -/
theorem descriptorOk_of_fields {w : BitVec 7} (h : 1 ≤ w.toNat ∧ w.toNat ≤ 64) (wo : BitVec 16) (bo : BitVec 5) :
    descriptorOk w.toNat wo.toNat bo.toNat = true :=
  (descriptorOk_iff _ _ _).2 ⟨h.1, h.2, Nat.le_of_lt_succ wo.isLt, Nat.le_of_lt_succ bo.isLt⟩

/-- A command word is what the assembler builds from its fields. -/
theorem asmFieldWord_slices {op : BitVec 4} (hop : d.extractLsb' 28 4 = op) :
    asmFieldWord op.toNat (d.extractLsb' 21 7).toNat (d.extractLsb' 5 16).toNat (d.extractLsb' 0 5).toNat = d := by
  rw [asmFieldWord_eq_fieldWord, ← hop, fieldWord_slices]

theorem assemble_disassemble_enc (h : d.extractLsb' 28 4 = 0x1#4) :
    assemble (disassemble d) = some (.write 0x002#17 d) := by
  rw [disassemble_enc h]
  split
  case isTrue hw =>
    have hword : asmFieldWord 0x1 _ _ _ = d := asmFieldWord_slices (op := 0x1#4) h
    rw [assemble, if_pos (descriptorOk_of_fields hw _ _), hword]
    rfl
  case isFalse => rfl

theorem assemble_disassemble_dec (h : d.extractLsb' 28 4 = 0x2#4) :
    assemble (disassemble d) = some (.write 0x002#17 d) := by
  rw [disassemble_dec h]
  split
  case isTrue hw =>
    have hword : asmFieldWord 0x2 _ _ _ = d := asmFieldWord_slices (op := 0x2#4) h
    rw [assemble, if_pos (descriptorOk_of_fields hw _ _), hword]
    rfl
  case isFalse => rfl

/-- A canonical command word is assembled again from its form. -/
theorem assemble_disassemble
    (hlow : d.extractLsb' 28 4 = 0x0#4 ∨ d.extractLsb' 28 4 = 0x3#4 ∨ d.extractLsb' 28 4 = 0x4#4 ∨
      d.extractLsb' 28 4 = 0x5#4 → d.extractLsb' 0 28 = 0#28) :
    assemble (disassemble d) = some (.write 0x002#17 d) := by
  obtain h | h | h | h | h | h | h := op_cases d
  · rw [eq_cmdWord_zero h (hlow (by simp [h]))]
    rfl
  · exact assemble_disassemble_enc h
  · exact assemble_disassemble_dec h
  · rw [eq_cmdWord_zero h (hlow (by simp [h]))]
    rfl
  · rw [eq_cmdWord_zero h (hlow (by simp [h]))]
    rfl
  · rw [eq_cmdWord_zero h (hlow (by simp [h]))]
    rfl
  · rw [disassemble_reserved h]
    rfl

end Disassemble

/-- The forms of `enc` and `dec` that assemble come back: their widths are legal. -/
theorem disassemble_asmFieldWord {w wo bo : Nat} (h : 1 ≤ w ∧ w ≤ 64 ∧ wo ≤ 65535 ∧ bo ≤ 31) :
    disassemble (asmFieldWord 0x1 w wo bo) = .enc w wo bo ∧ disassemble (asmFieldWord 0x2 w wo bo) = .dec w wo bo := by
  obtain ⟨w, wo, bo, rfl, rfl, rfl⟩ := fields_of_accepted h
  have henc : asmFieldWord 0x1 w.toNat wo.toNat bo.toNat = _ := asmFieldWord_eq_fieldWord 0x1#4 w wo bo
  have hdec : asmFieldWord 0x2 w.toNat wo.toNat bo.toNat = _ := asmFieldWord_eq_fieldWord 0x2#4 w wo bo
  have hwidth : 1 ≤ w.toNat ∧ w.toNat ≤ 64 := ⟨h.1, h.2.1⟩
  rw [henc, hdec, disassemble_enc (fieldWord_op _ w wo bo), disassemble_dec (fieldWord_op _ w wo bo)]
  simp only [fieldWord_width, fieldWord_wordOff, fieldWord_bitOff, if_pos hwidth, and_self]

/-- Disassembling what the assembler writes to CMD for a command form gives the form back. -/
theorem disassemble_of_assemble {a : Asm} {d : Word} (hrd : ∀ r, a ≠ .rd r) (hwr : ∀ r x, a ≠ .wr r x)
    (hfeed : ∀ x, a ≠ .cvfeed x) (h : assemble a = some (.write 0x002#17 d)) : disassemble d = a := by
  cases a with
  | rd r => exact absurd rfl (hrd r)
  | wr r x => exact absurd rfl (hwr r x)
  | cvfeed x => exact absurd rfl (hfeed x)
  | enc w wo bo =>
    simp only [assemble] at h
    split at h
    case isTrue hok =>
      cases h
      exact (disassemble_asmFieldWord ((descriptorOk_iff w wo bo).1 hok)).1
    case isFalse => cases h
  | dec w wo bo =>
    simp only [assemble] at h
    split at h
    case isTrue hok =>
      cases h
      exact (disassemble_asmFieldWord ((descriptorOk_iff w wo bo).1 hok)).2
    case isFalse => cases h
  | _ =>
    cases h
    rfl

/-- Settles O8: `disassemble_of_assemble` is the first half; the second is the equations of `caseCmd` at the
disassembler's forms, and `assemble_disassemble`. -/
theorem disassemblyInvertsAssembly : Obligations.DisassemblyInvertsAssembly :=
  ⟨fun _ _ hrd hwr hfeed h => disassemble_of_assemble hrd hwr hfeed h,
    fun _ => ⟨caseCmd_nop, caseCmd_begin, caseCmd_clrbuf, caseCmd_cvrst, disassemble_enc, disassemble_dec,
      disassemble_reserved, assemble_disassemble⟩⟩

end Sys2Proof.Proofs

/-! PROOFS. What every instruction does to the units, by the effects of Laws/Step.lean (60_exceptions.md section 4,
10_state.md section 3). -/

namespace Sys2Proof.Proofs
open Sys2Proof Sys2Proof.Machine

/-! ## The instruction that acts

A write to CMD acts as the command it carries, every other instruction as itself; so a fact about all instructions is
one about the effects, and comes back to the write to CMD by its code. -/

/-- The instruction whose meaning is executed: a write to CMD carries a command (10_state.md rule R25). -/
def carried : Instr → Instr
  | .wrCmd d => decodeCmd d
  | i => i

theorem exec_carried (i : Instr) (s : State) : exec (carried i) s = exec i s := by
  cases i with
  | wrCmd d => exact (execWrCmd_eq_exec_decodeCmd d s).symm
  | _ => rfl

theorem carried_ne_wrCmd (i : Instr) (d : Word) : carried i ≠ .wrCmd d := by
  cases i with
  | wrCmd e => exact (decodeCmd_is_command e).2.2 d
  | _ => simp [carried]

theorem effect_of_exec {i : Instr} {s t : State} (h : exec i s = .next t) : Effect s (carried i) t :=
  exec_effect (carried_ne_wrCmd i) ((exec_carried i s).trans h)

/-- What acts is the instruction itself, or the command whose code it writes to CMD. -/
theorem eq_or_wrCmd_of_carried {i j : Instr} (h : carried i = j) :
    i = j ∨ ∃ d, i = .wrCmd d ∧ encode j = .command d := by
  cases i with
  | wrCmd d => exact .inr ⟨d, rfl, h ▸ encode_decodeCmd d⟩
  | _ => exact .inl h

/-- A transaction that is not a write to CMD acts only as itself. -/
theorem eq_of_carried_transaction {i j : Instr} {t : Txn} (ht : encode j = .transaction t) (h : carried i = j) :
    i = j := by
  obtain h | ⟨d, _, hd⟩ := eq_or_wrCmd_of_carried h
  · exact h
  · cases hd.symm.trans ht

/-- A command acts as itself or through the write of its word, which has the command's OP. -/
theorem eq_or_wrCmd_op {i j : Instr} {word : Word} {op : BitVec 4} (hj : encode j = .command word)
    (hop : word.extractLsb' 28 4 = op) (h : carried i = j) : i = j ∨ ∃ d, i = .wrCmd d ∧ d.extractLsb' 28 4 = op := by
  obtain h | ⟨d, hi, hd⟩ := eq_or_wrCmd_of_carried h
  · exact .inl h
  · cases hj.symm.trans hd
    exact .inr ⟨_, hi, hop⟩

section Owners
variable {i : Instr} {w : BitVec 7} {wo : BitVec 16} {bo : BitVec 5} {g : BitVec 28}

theorem carried_enc (h : carried i = .enc w wo bo) :
    i = .enc w wo bo ∨ ∃ d, i = .wrCmd d ∧ d.extractLsb' 28 4 = 0x1#4 :=
  eq_or_wrCmd_op rfl (fieldWord_op _ w wo bo) h

theorem carried_dec (h : carried i = .dec w wo bo) :
    i = .dec w wo bo ∨ ∃ d, i = .wrCmd d ∧ d.extractLsb' 28 4 = 0x2#4 :=
  eq_or_wrCmd_op rfl (fieldWord_op _ w wo bo) h

theorem carried_begin (h : carried i = .beginWrite g) :
    i = .beginWrite g ∨ ∃ d, i = .wrCmd d ∧ d.extractLsb' 28 4 = 0x3#4 :=
  eq_or_wrCmd_op rfl (cmdWord_op _ g) h

theorem carried_clrbuf (h : carried i = .clrbuf g) : i = .clrbuf g ∨ ∃ d, i = .wrCmd d ∧ d.extractLsb' 28 4 = 0x4#4 :=
  eq_or_wrCmd_op rfl (cmdWord_op _ g) h

theorem carried_cvrst (h : carried i = .cvrst g) : i = .cvrst g ∨ ∃ d, i = .wrCmd d ∧ d.extractLsb' 28 4 = 0x5#4 :=
  eq_or_wrCmd_op rfl (cmdWord_op _ g) h

end Owners

/-- What can be rejected, with the write to CMD that carries it. -/
theorem carried_rejectable {i : Instr} (h : CanBeRejected (carried i)) :
    CanBeRejected i ∨ ∃ d, i = .wrCmd d ∧
      (d.extractLsb' 28 4 = 0x1#4 ∨ d.extractLsb' 28 4 = 0x2#4 ∨ 6 ≤ (d.extractLsb' 28 4).toNat) := by
  cases i with
  | wrCmd d => exact .inr ⟨d, rfl, op_of_decodeCmd_rejectable h⟩
  | _ => exact .inl h

/-! ## Who changes what -/

section Changes
variable {i : Instr} {s t : State}

theorem res_owner (e : Effect s i t) (h : t.codec.res ≠ s.codec.res) : ∃ w wo bo, i = .dec w wo bo := by
  cases e with
  | dec w wo bo => exact ⟨w, wo, bo, rfl⟩
  | _ => exact absurd rfl h

theorem val_owner (e : Effect s i t) (h : t.codec.val ≠ s.codec.val) : ∃ d, i = .wrValLo d ∨ i = .wrValHi d := by
  cases e with
  | valLo d => exact ⟨d, .inl rfl⟩
  | valHi d => exact ⟨d, .inr rfl⟩
  | _ => exact absurd rfl h

theorem rchkEn_owner (e : Effect s i t) (h : t.codec.rchkEn ≠ s.codec.rchkEn) : ∃ d, i = .wrCtrl d := by
  cases e with
  | ctrl d => exact ⟨d, rfl⟩
  | _ => exact absurd rfl h

theorem viol_owner (e : Effect s i t) (h : t.codec.viol ≠ s.codec.viol) :
    (∃ w wo bo, i = .enc w wo bo) ∨ ∃ g, i = .beginWrite g := by
  cases e with
  | enc w wo bo => exact .inl ⟨w, wo, bo, rfl⟩
  | begin g => exact .inr ⟨g, rfl⟩
  | _ => exact absurd rfl h

theorem buf_owner (e : Effect s i t) (h : t.codec.buf ≠ s.codec.buf) :
    (∃ w wo bo, i = .enc w wo bo) ∨ (∃ g, i = .clrbuf g) ∨ ∃ k d, i = .wrBuf k d := by
  cases e with
  | enc w wo bo => exact .inl ⟨w, wo, bo, rfl⟩
  | clrbuf g => exact .inr (.inl ⟨g, rfl⟩)
  | buf k d => exact .inr (.inr ⟨k, d, rfl⟩)
  | _ => exact absurd rfl h

theorem cv_owner (e : Effect s i t) (h : t.cv ≠ s.cv) : (∃ w, i = .cvfeed w) ∨ ∃ g, i = .cvrst g := by
  cases e with
  | feed w => exact .inl ⟨w, rfl⟩
  | cvrst g => exact .inr ⟨g, rfl⟩
  | _ => exact absurd rfl h

/-- The error record changes only by its acknowledgement or by a rejection. -/
theorem errorRecord_owner (e : Effect s i t) :
    (t.codec.err = s.codec.err ∧ t.codec.errcode = s.codec.errcode ∧ t.codec.errcnt = s.codec.errcnt) ∨
      (∃ d, i = .wrStatus d ∧ d.getLsbD 0 = true ∧ t.codec = clearErrors s.codec) ∨
      (CanBeRejected i ∧ ∃ code, code ≠ .none ∧ t = cmdError code s) := by
  cases e with
  | acknowledge d h => exact .inr (.inl ⟨d, rfl, h, rfl⟩)
  | rejected _ code h hc => exact .inr (.inr ⟨h, code, hc, rfl⟩)
  | _ => exact .inl ⟨rfl, rfl, rfl⟩

theorem effect_params (e : Effect s i t) : t.params = s.params := by
  cases e <;> rfl

theorem effect_pending (e : Effect s i t) : t.pending = s.pending := by
  cases e <;> rfl

/-- A read returns one word, and nothing else returns any. -/
theorem effect_returned (e : Effect s i t) :
    (∃ off, i = .rd off ∧ t.returned = s.returned ++ [readReg s off]) ∨
      ((∀ off, i ≠ .rd off) ∧ t.returned = s.returned) := by
  cases e with
  | read off => exact .inl ⟨off, rfl, rfl⟩
  | unchanged _ h => exact .inr ⟨h, rfl⟩
  | rejected _ _ h => exact .inr ⟨by rintro off rfl; simp [CanBeRejected] at h, rfl⟩
  | _ => exact .inr ⟨by simp, rfl⟩

end Changes

/-- Settles O52: the owners of each register are effects, and a command among them acts through its write to CMD
too. -/
theorem codecRegistersChangeOnlyByTheirOwners : Obligations.CodecRegistersChangeOnlyByTheirOwners := by
  intro i s t h
  have e := effect_of_exec h
  refine ⟨fun hres => ?res, fun hval => ?val, fun hen => ?rchkEn, fun hviol => ?viol, fun hbuf => ?buf⟩
  case res =>
    obtain ⟨w, wo, bo, hi⟩ := res_owner e hres
    exact (carried_dec hi).imp_left fun h => ⟨w, wo, bo, h⟩
  case val =>
    obtain ⟨d, hi⟩ := val_owner e hval
    exact ⟨d, hi.imp (eq_of_carried_transaction rfl) (eq_of_carried_transaction rfl)⟩
  case rchkEn =>
    obtain ⟨d, hi⟩ := rchkEn_owner e hen
    exact ⟨d, eq_of_carried_transaction rfl hi⟩
  case viol =>
    obtain ⟨w, wo, bo, hi⟩ | ⟨g, hi⟩ := viol_owner e hviol
    · obtain hi | ⟨d, hi, hop⟩ := carried_enc hi
      · exact .inl ⟨w, wo, bo, hi⟩
      · exact .inr (.inr ⟨d, hi, .inl hop⟩)
    · obtain hi | ⟨d, hi, hop⟩ := carried_begin hi
      · exact .inr (.inl ⟨g, hi⟩)
      · exact .inr (.inr ⟨d, hi, .inr hop⟩)
  case buf =>
    obtain ⟨w, wo, bo, hi⟩ | ⟨g, hi⟩ | ⟨k, d, hi⟩ := buf_owner e hbuf
    · obtain hi | ⟨d, hi, hop⟩ := carried_enc hi
      · exact .inl ⟨w, wo, bo, hi⟩
      · exact .inr (.inr (.inr ⟨d, hi, .inl hop⟩))
    · obtain hi | ⟨d, hi, hop⟩ := carried_clrbuf hi
      · exact .inr (.inl ⟨g, hi⟩)
      · exact .inr (.inr (.inr ⟨d, hi, .inr hop⟩))
    · exact .inr (.inr (.inl ⟨k, d, eq_of_carried_transaction rfl hi⟩))

/-- Settles O53: the two effects on the validator are those of CVFEED and CVRST. -/
theorem validatorMovesOnlyWhenFedOrReset : Obligations.ValidatorMovesOnlyWhenFedOrReset := by
  intro i s t h hcv
  obtain ⟨w, hi⟩ | ⟨g, hi⟩ := cv_owner (effect_of_exec h) hcv
  · exact .inl ⟨w, eq_of_carried_transaction rfl hi⟩
  · exact .inr ((carried_cvrst hi).imp_left fun h => ⟨g, h⟩)

/-- Settles O50: the effects on the error record are the acknowledgement and the rejection, whose effect is
`cmdError_eq`. -/
theorem rejectionIsPrecise : Obligations.RejectionIsPrecise := by
  intro i s t h
  obtain hsame | ⟨d, hi, hd, hclear⟩ | ⟨hrej, code, hcode, ht⟩ := errorRecord_owner (effect_of_exec h)
  · exact .inl hsame
  · exact .inr (.inl ⟨⟨d, eq_of_carried_transaction rfl hi, hd⟩, by simp [hclear]⟩)
  · refine .inr (.inr ⟨?who, code, hcode, ht.trans (cmdError_eq code s)⟩)
    simpa only [CanBeRejected, or_assoc] using carried_rejectable hrej

/-- Settles O55: `effect_pending` and `effect_returned`; no command word stands for a read. -/
theorem onlyReadsReturnWords : Obligations.OnlyReadsReturnWords := by
  intro i s t h
  have e := effect_of_exec h
  refine ⟨effect_pending e, ?_⟩
  obtain ⟨off, hi, hret⟩ | ⟨hi, hret⟩ := effect_returned e
  · exact .inl ⟨off, eq_of_carried_transaction rfl hi, hret⟩
  · exact .inr ⟨fun off hrd => hi off (by rw [hrd]; rfl), hret⟩

end Sys2Proof.Proofs

/-! PROOFS. The units apart (00_scope.md section 1), and the error record apart (60_exceptions.md section 4): an
instruction other than a read is a function on the codec beside a function on the validator. -/

namespace Sys2Proof.Proofs
open Sys2Proof Sys2Proof.Machine

/-! ## The two units -/

/-- ENC or DEC on the codec: the descriptor check, then what an accepted command writes (41_codec.md rule R89). -/
def checkedCodec (accepted : Nat → Nat → Codec → Codec) (p : Params) (w : BitVec 7) (wo : BitVec 16) (bo : BitVec 5)
    (c : Codec) : Codec :=
  match checkField p.nBufWords (fieldWidth w) (globalOffset wo bo) with
  | some code => recordError code c
  | none => accepted (fieldWidth w) (globalOffset wo bo) c

/-- The codec after an instruction that is not a write to CMD. -/
def codecAfter (p : Params) (i : Instr) (c : Codec) : Codec :=
  match i with
  | .wrCtrl d => { c with rchkEn := d.getLsbD 0 }
  | .wrStatus d => if d.getLsbD 0 then clearErrors c else c
  | .wrValLo d => { c with val := c.val.extractLsb' 32 32 ++ d }
  | .wrValHi d => { c with val := d ++ c.val.extractLsb' 0 32 }
  | .wrBuf k d => { c with buf := writeBuf c.buf k.toNat d }
  | .enc w wo bo => checkedCodec encCodec p w wo bo c
  | .dec w wo bo => checkedCodec decCodec p w wo bo c
  | .beginWrite _ => { c with viol := 0#32 }
  | .clrbuf _ => { c with buf := clearBuf p }
  | .illegal67 _ _ => recordError .illegalOp c
  | .illegal8F _ _ => recordError .illegalOp c
  | _ => c

/-- The validator after an instruction that is not a write to CMD. -/
def cvAfter (p : Params) (i : Instr) (v : Validator) : Validator :=
  match i with
  | .cvfeed w => cvFeed p w v
  | .cvrst _ => Validator.reset p
  | _ => v

theorem execEnc_eq (w : BitVec 7) (wo : BitVec 16) (bo : BitVec 5) (s : State) :
    execEnc w wo bo s = .next { s with codec := checkedCodec encCodec s.params w wo bo s.codec } := by
  unfold execEnc checkedCodec
  cases checkField s.params.nBufWords (fieldWidth w) (globalOffset wo bo) <;> rfl

theorem execDec_eq (w : BitVec 7) (wo : BitVec 16) (bo : BitVec 5) (s : State) :
    execDec w wo bo s = .next { s with codec := checkedCodec decCodec s.params w wo bo s.codec } := by
  unfold execDec checkedCodec
  cases checkField s.params.nBufWords (fieldWidth w) (globalOffset wo bo) <;> rfl

theorem execWrStatus_eq (d : Word) (s : State) :
    execWrStatus d s = .next { s with codec := if d.getLsbD 0 then clearErrors s.codec else s.codec } := by
  unfold execWrStatus
  split <;> rfl

/-- An instruction that answers a next state is well-formed: only a read and a write to BUF can be refused. -/
theorem wf_of_exec {i : Instr} {s t : State} (h : exec i s = .next t) : i.wf s.params = true := by
  cases i with
  | rd off =>
    simp only [exec, execRd] at h
    split at h
    case isTrue hin => exact hin
    case isFalse => cases h
  | wrBuf k d =>
    simp only [exec, execWrBuf] at h
    split at h
    case isTrue hin => exact decide_eq_true hin
    case isFalse => cases h
  | _ => rfl

theorem carried_wf {i : Instr} {p : Params} (h : i.wf p = true) : (carried i).wf p = true := by
  cases i with
  | wrCmd d => exact decodeCmd_wf p d
  | _ => exact h

/-- Every instruction but a read and a write to CMD is the product of what it does to the two units. -/
theorem exec_eq_units_of_ne {i : Instr} {s : State} (hcmd : ∀ d, i ≠ .wrCmd d) (hrd : ∀ off, i ≠ .rd off)
    (hwf : i.wf s.params = true) :
    exec i s = .next { s with codec := codecAfter s.params i s.codec, cv := cvAfter s.params i s.cv } := by
  cases i with
  | wrCmd d => exact absurd rfl (hcmd d)
  | rd off => exact absurd rfl (hrd off)
  | wrStatus d => exact execWrStatus_eq d s
  | wrBuf k d => exact execWrBuf_inside (of_decide_eq_true hwf) d
  | enc w wo bo => exact execEnc_eq w wo bo s
  | dec w wo bo => exact execDec_eq w wo bo s
  | _ => rfl

theorem carried_ne_rd {i : Instr} (hrd : ∀ off, i ≠ .rd off) (off : Offset) : carried i ≠ .rd off := fun h =>
  hrd off (eq_of_carried_transaction rfl h)

/-- The same for a write to CMD, which acts as the command it carries. -/
theorem exec_eq_units {i : Instr} {s : State} (hrd : ∀ off, i ≠ .rd off) (hwf : i.wf s.params = true) :
    exec i s =
      .next { s with codec := codecAfter s.params (carried i) s.codec, cv := cvAfter s.params (carried i) s.cv } := by
  rw [← exec_carried]
  exact exec_eq_units_of_ne (carried_ne_wrCmd i) (carried_ne_rd hrd) (carried_wf hwf)

/-- A read leaves both units as they are. -/
theorem units_of_exec {i : Instr} {s t : State} (h : exec i s = .next t) :
    t.codec = codecAfter s.params (carried i) s.codec ∧ t.cv = cvAfter s.params (carried i) s.cv := by
  by_cases hrd : ∃ off, i = .rd off
  · obtain ⟨off, rfl⟩ := hrd
    cases (execRd_inside ((inWindow_iff s.params off).1 (wf_of_exec h))).symm.trans h
    exact ⟨rfl, rfl⟩
  · cases (exec_eq_units (not_exists.1 hrd) (wf_of_exec h)).symm.trans h
    exact ⟨rfl, rfl⟩

/-- Settles O54: each unit after the instruction is a function of the parameters and that unit before it. -/
theorem unitsDoNotInterfere : Obligations.UnitsDoNotInterfere := by
  intro i s1 s2 t1 t2 hp h1 h2
  obtain ⟨hcodec1, hcv1⟩ := units_of_exec h1
  obtain ⟨hcodec2, hcv2⟩ := units_of_exec h2
  exact ⟨fun hcv => by rw [hcv1, hcv2, hp, hcv], fun hcodec => by rw [hcodec1, hcodec2, hp, hcodec]⟩

/-! ## The error record -/

/-- The codec with another error record. -/
def withRecord (c : Codec) (err : Bool) (code : ErrCode) (cnt : Word) : Codec :=
  { c with err := err, errcode := code, errcnt := cnt }

/-- ENC and DEC of the codec ignore the error record, if the accepted command does. -/
theorem checkedCodec_withRecord {accepted : Nat → Nat → Codec → Codec}
    (h : ∀ W G c err code cnt, accepted W G (withRecord c err code cnt) = withRecord (accepted W G c) err code cnt)
    (p : Params) (w : BitVec 7) (wo : BitVec 16) (bo : BitVec 5) (c : Codec) (err : Bool) (code : ErrCode)
    (cnt : Word) :
    ∃ err' code' cnt', checkedCodec accepted p w wo bo c =
      withRecord (checkedCodec accepted p w wo bo (withRecord c err code cnt)) err' code' cnt' := by
  unfold checkedCodec
  split
  · exact ⟨_, _, _, rfl⟩
  · rw [h]
    exact ⟨_, _, _, rfl⟩

/-- Whatever the error record holds, the codec after an instruction differs in it alone. -/
theorem codecAfter_withRecord (p : Params) (i : Instr) (c : Codec) (err : Bool) (code : ErrCode) (cnt : Word) :
    ∃ err' code' cnt',
      codecAfter p i c = withRecord (codecAfter p i (withRecord c err code cnt)) err' code' cnt' := by
  cases i with
  | enc w wo bo => exact checkedCodec_withRecord (fun _ _ _ _ _ _ => rfl) p w wo bo c err code cnt
  | dec w wo bo => exact checkedCodec_withRecord (fun _ _ _ _ _ _ => rfl) p w wo bo c err code cnt
  | wrStatus d =>
    simp only [codecAfter]
    split <;> exact ⟨_, _, _, rfl⟩
  | _ => exact ⟨_, _, _, rfl⟩

/-- Settles O51: completion is well-formedness, which does not look at the codec, and `codecAfter_withRecord` is the
rest. -/
theorem errorRecordBlocksNothing : Obligations.ErrorRecordBlocksNothing := by
  intro i s t err code cnt hrd h
  have hwf := wf_of_exec h
  obtain ⟨err', code', cnt', hc⟩ := codecAfter_withRecord s.params (carried i) s.codec err code cnt
  refine ⟨_, exec_eq_units (s := { s with codec := withRecord s.codec err code cnt }) hrd hwf, ?_⟩
  cases (exec_eq_units hrd hwf).symm.trans h
  rw [hc]
  rfl

end Sys2Proof.Proofs

/-! PROOFS. The step, the reset and the invariant (00_scope.md, 20_memory.md, 70_reset_and_hazards.md). -/

namespace Sys2Proof.Proofs
open Sys2Proof Sys2Proof.Machine

/-! ## The step -/

/-- An access runs what the decoder reads from the transaction that carries the code; a command word is read again as
the command carried by the write to CMD (10_state.md rule R25). -/
theorem access_of_decode {c : Code} {i : Instr} {s : State} (h : decode s.params c = .ok i) :
    access c.txn s = exec i s := by
  cases c with
  | transaction t => simp only [access, Code.txn, h]
  | command d =>
    cases h
    exact execWrCmd_eq_exec_decodeCmd d s

/-- Settles O9: the step takes the event from the queue, and `access_of_decode` runs it. -/
theorem stepRunsTheDecodedInstruction : Obligations.StepRunsTheDecodedInstruction := by
  intro s c rest i hp hi
  rw [step_of_access hp]
  exact access_of_decode (s := { s with pending := rest }) hi

/-- Settles O10: the step's case of an empty queue. -/
theorem stepWithNothingPendingKeepsState : Obligations.StepWithNothingPendingKeepsState := by
  intro s hp
  simp only [step, hp]

/-- What a step can do: nothing, one instruction, or the block reset, the event being taken from the queue. -/
theorem step_cases {s t : State} (h : step s = .next t) :
    t = s ∨ ∃ rest, (∃ i, exec i { s with pending := rest } = .next t) ∨ t = blockReset { s with pending := rest } := by
  match hp : s.pending with
  | [] =>
    cases (stepWithNothingPendingKeepsState s hp).symm.trans h
    exact .inl rfl
  | .reset :: rest =>
    cases (step_of_reset hp).symm.trans h
    exact .inr ⟨rest, .inr rfl⟩
  | .access x :: rest =>
    refine .inr ⟨rest, .inl ?_⟩
    cases hd : decode s.params (.transaction x) with
    | ok i => exact ⟨i, (stepRunsTheDecodedInstruction s (.transaction x) rest i hp hd).symm.trans h⟩
    | error e => cases (step_of_decode_error hp hd).symm.trans h

/-- Settles O58: no case of `step_cases` writes the parameters. -/
theorem parametersAreFixed : Obligations.ParametersAreFixed := by
  intro s t h
  obtain rfl | ⟨rest, ⟨i, hi⟩ | rfl⟩ := step_cases h
  · rfl
  · exact effect_params (s := { s with pending := rest }) (effect_of_exec hi)
  · rfl

/-- Settles O13: legal parameters keep the distance from CODEC_BASE within the 17 bits of an offset. -/
theorem windowStartsAtCodecBase : Obligations.WindowStartsAtCodecBase := by
  intro p addr hp
  rw [params_wf_iff] at hp
  refine ⟨fun h => ?inside, fun h => if_neg h⟩
  case inside =>
    have hoff : (BitVec.ofNat 17 (addr - Config.codecBase)).toNat = addr - Config.codecBase := by
      rw [BitVec.toNat_ofNat, Nat.mod_eq_of_lt (by omega)]
    exact ⟨_, if_pos h, hoff, (inWindow_iff p _).2 (by omega)⟩

/-! ## The invariant -/

theorem codec_inv_recordError {code : ErrCode} {c : Codec} (h : c.Inv) (hcode : code ≠ .none) :
    (recordError code c).Inv := by
  obtain ⟨hnone, _⟩ := h
  have hkept : (recordError code c).errcode ≠ .none := by
    cases herr : c.err with
    | false => simpa [herr] using hcode
    | true => simpa [herr] using hnone
  simp [Codec.Inv, hkept, satinc_ne_zero, -recordError_errcode]

theorem codec_inv_clearErrors (c : Codec) : (clearErrors c).Inv := by
  simp [Codec.Inv]

theorem codec_inv_reset (n : Nat) : (Codec.reset n).Inv := by
  simp [Codec.Inv, Codec.reset]

theorem validator_inv_reset (p : Params) : (Validator.reset p).Inv p := by
  simp [Validator.Inv, Validator.reset]

section Feed
variable {p : Params} {v : Validator} (w : Word)

theorem validator_inv_feedIdle : (feedIdle p w v).Inv p := by
  simp [Validator.Inv, feedIdle]

theorem validator_inv_feedHdr1 (h : v.NoFlags) : (feedHdr1 p w v).Inv p := by
  simp [Validator.Inv, feedHdr1, h]

/-- The size word is 0 at the terminator, and else gives the count of a body of at least one word. -/
theorem validator_inv_feedHcrc (h : v.NoFlags) (hremain : v.remain = v.size) : (feedHcrc p w v).Inv p := by
  by_cases hsize : v.size = 0#24
  · simp [feedHcrc_terminator hsize, Validator.Inv, h, hremain, hsize]
  · have hpos : 1 ≤ v.size.toNat := by bv_omega
    by_cases hcrc : crcFinal p v.acc = w
    · simp [feedHcrc_match hsize hcrc, Validator.Inv, Validator.HdrChecked, h, hremain, hpos]
    · simp [feedHcrc_mismatch hsize hcrc, Validator.Inv, Validator.HdrChecked, h, hremain, hpos]

/-- The count reaches 0 with the last word, which is in BCRC. -/
theorem validator_inv_feedBody (h : v.HdrChecked) (hpos : 1 ≤ v.remain.toNat) (hle : v.remain.toNat ≤ v.size.toNat) :
    (feedBody p w v).Inv p := by
  have hpred := toNat_pred_add_one hpos
  by_cases hlast : v.remain - 1#24 = 0#24
  · have hsize : v.size ≠ 0#24 := by bv_omega
    simp [feedBody, Validator.Inv, Validator.HdrChecked, h, hlast, hsize]
  · have hmore : 1 ≤ (v.remain - 1#24).toNat := by bv_omega
    have hless : (v.remain - 1#24).toNat ≤ v.size.toNat := by omega
    simp [feedBody, Validator.Inv, Validator.HdrChecked, h, hlast, hmore, hless, -BitVec.toNat_sub]

theorem validator_inv_feedBcrc (h : v.HdrChecked) (hremain : v.remain = 0#24) : (feedBcrc p w v).Inv p := by
  by_cases hcrc : crcFinal p v.acc = w
  · simp [feedBcrc_match hcrc, Validator.Inv, h, hremain]
  · simp [feedBcrc_mismatch hcrc, Validator.Inv, h, hremain]

/-- A word fed keeps the invariant, in each position by what the position holds. -/
theorem validator_inv_cvFeed (h : v.Inv p) : (cvFeed p w v).Inv p := by
  obtain ⟨_, _, _, hhdr1, hhcrc, hbody, hbcrc⟩ := h
  cases hst : v.state with
  | idle =>
    rw [cvFeed_idle hst]
    exact validator_inv_feedIdle w
  | hdr1 =>
    rw [cvFeed_hdr1 hst]
    exact validator_inv_feedHdr1 w (hhdr1 hst).1
  | hcrc =>
    obtain ⟨hflags, hremain⟩ := hhcrc hst
    rw [cvFeed_hcrc hst]
    exact validator_inv_feedHcrc w hflags hremain
  | body =>
    obtain ⟨hflags, hpos, hle⟩ := hbody hst
    rw [cvFeed_body hst]
    exact validator_inv_feedBody w hflags hpos hle
  | bcrc =>
    obtain ⟨hflags, hremain, _⟩ := hbcrc hst
    rw [cvFeed_bcrc hst]
    exact validator_inv_feedBcrc w hflags hremain

end Feed

/-- Every effect keeps the invariant: the buffer keeps its length, the error record its consistency, and the validator
is fed or reset. -/
theorem inv_of_effect {i : Instr} {s t : State} (hinv : s.Inv) (e : Effect s i t) : t.Inv := by
  obtain ⟨hp, hmem, herr, hcv⟩ := hinv
  cases e with
  | acknowledge => exact ⟨hp, hmem, codec_inv_clearErrors _, hcv⟩
  | rejected _ code _ hcode => exact ⟨hp, hmem, codec_inv_recordError herr hcode, hcv⟩
  | buf k d => exact ⟨hp, memory_wf_writeBuf hmem _ d, herr, hcv⟩
  | enc w wo bo => exact ⟨hp, memory_wf_encodeField hmem _ _ _, herr, hcv⟩
  | clrbuf => exact ⟨hp, memory_wf_clearBuf _, herr, hcv⟩
  | feed w => exact ⟨hp, hmem, herr, validator_inv_cvFeed w hcv⟩
  | cvrst => exact ⟨hp, hmem, herr, validator_inv_reset _⟩
  | _ => exact ⟨hp, hmem, herr, hcv⟩

/-- For legal parameters the reset state meets the invariant. -/
theorem inv_resetWith {p : Params} (hp : p.wf = true) : (State.resetWith p).Inv :=
  ⟨hp, memory_wf_reset p, codec_inv_reset _, validator_inv_reset p⟩

/-- Settles O59: the default parameters are legal. -/
theorem resetMeetsTheInvariant : Obligations.ResetMeetsTheInvariant :=
  ⟨fun _ hp => inv_resetWith hp, inv_resetWith (by decide)⟩

/-- Settles O60: the invariant does not look at the queue; an instruction keeps it by its effect, and the block reset
reaches it. -/
theorem everyStepKeepsTheInvariant : Obligations.EveryStepKeepsTheInvariant := by
  intro s t hinv h
  obtain rfl | ⟨rest, ⟨i, hi⟩ | rfl⟩ := step_cases h
  · exact hinv
  · have hqueued : State.Inv { s with pending := rest } := hinv
    exact inv_of_effect hqueued (effect_of_exec hi)
  · obtain ⟨hp, _⟩ := hinv
    exact inv_resetWith hp

/-! ## The reset (70_reset_and_hazards.md rule R144) -/

/-- A state whose codec no single instruction resets, for any parameters: CTRL has one owner and RES another. -/
def farFromReset (p : Params) : State :=
  { State.resetWith p with codec := { Codec.reset p.nBufWords with rchkEn := true, res := 1#64 } }

theorem exec_farFromReset_ne_reset {p : Params} {i : Instr} {t : State} (h : exec i (farFromReset p) = .next t) :
    t.codec ≠ Codec.reset p.nBufWords := by
  intro hreset
  obtain ⟨hres, _, hen, _⟩ := codecRegistersChangeOnlyByTheirOwners i _ t h
  rw [hreset] at hres hen
  obtain ⟨c, rfl⟩ := hen Bool.false_ne_true
  obtain ⟨w, wo, bo, hdec⟩ | ⟨d, hcmd, _⟩ := hres (show 0#64 ≠ 1#64 by decide)
  · cases hdec
  · cases hcmd

/-- Settles O57: the reset event is one step; CTRL and RES have different owners; and the seven writes are evaluated,
up to the two halves of VAL that are put together. -/
theorem softwareReachesTheResetState : Obligations.SoftwareReachesTheResetState := by
  refine ⟨fun s rest hp => step_of_reset hp, fun p => ⟨farFromReset p, rfl, fun _ _ h => exec_farFromReset_ne_reset h⟩,
    fun s => ?writes⟩
  case writes =>
    have hlo : (s.codec.val.extractLsb' 32 32 ++ 0#32).extractLsb' 0 32 = 0#32 := slice_low _ _
    show Host.Outcome.next { State.resetWith s.params with
        codec := { Codec.reset s.params.nBufWords with
          val := 0#32 ++ (s.codec.val.extractLsb' 32 32 ++ 0#32).extractLsb' 0 32, res := s.codec.res }
        pending := s.pending, returned := s.returned } = _
    rw [hlo]
    rfl

end Sys2Proof.Proofs

/-! PROOFS. STATUS and CV_STATUS as read, and writes that are repeated (10_state.md section 3 and 4, 20_memory.md
section 3). -/

namespace Sys2Proof.Proofs
open Sys2Proof Sys2Proof.Machine

/-! ## The bits of STATUS and CV_STATUS -/

theorem readReg_status (s : State) : readReg s 0x001#17 = statusWord s.codec := rfl

theorem readReg_cvStatus (s : State) : readReg s 0x011#17 = cvStatusWord s.cv := rfl

/-- Above the bits it is widened from, a word is 0. -/
theorem slice_setWidth_above {n : Nat} (x : BitVec n) (m len : Nat) : (x.setWidth m).extractLsb' n len = 0#len := by
  ext i hi
  simp

theorem statusWord_errcode (c : Codec) : (statusWord c).extractLsb' 1 3 = errCodeBits c.errcode :=
  (BitVec.extractLsb'_setWidth_of_le (by decide)).trans (slice_high _ _)

theorem cvStatusWord_state (v : Validator) : (cvStatusWord v).extractLsb' 0 3 = cvStateBits v.state :=
  (BitVec.extractLsb'_setWidth_of_le (by decide)).trans (slice_low _ _)

/-- BLOCKID stands above the eight bits of the flags and STATE, which are put together one by one. -/
theorem cvStatusWord_blockid (v : Validator) : (cvStatusWord v).extractLsb' 8 8 = v.blockid := by
  refine (BitVec.extractLsb'_setWidth_of_le (by decide)).trans ?_
  exact (slice_above _ _ 5 8).trans <| (slice_above _ _ 4 8).trans <| (slice_above _ _ 3 8).trans <|
    (slice_above _ _ 2 8).trans <| (slice_above _ _ 1 8).trans (slice_high _ _)

/-- The five flags, from bit 3 on (10_state.md rule R33). -/
theorem cvStatusWord_flags (v : Validator) :
    (cvStatusWord v).getLsbD 3 = v.hdrOk ∧ (cvStatusWord v).getLsbD 4 = v.hdrBad ∧
      (cvStatusWord v).getLsbD 5 = v.bodyOk ∧ (cvStatusWord v).getLsbD 6 = v.bodyBad ∧
      (cvStatusWord v).getLsbD 7 = v.term := by
  simp only [cvStatusWord, BitVec.getLsbD_setWidth, BitVec.getLsbD_append, BitVec.getLsbD_ofBool]
  simp

/-- Settles O16: the slices of the two words; a code's number is its case of `errCodeBits` or `cvStateBits`. -/
theorem statusRegistersShowTheirFields : Obligations.StatusRegistersShowTheirFields := by
  intro s
  have herr := readReg_status_err s
  rw [readReg_status, readReg_cvStatus, statusWord_errcode, cvStatusWord_state, cvStatusWord_blockid]
  obtain ⟨hhdrOk, hhdrBad, hbodyOk, hbodyBad, hterm⟩ := cvStatusWord_flags s.cv
  refine ⟨herr, rfl, ?_, ?_, ?_, ?_, slice_setWidth_above _ _ _, rfl, ?_, ?_, ?_, ?_, ?_, hhdrOk, hhdrBad, hbodyOk,
    hbodyBad, hterm, rfl, slice_setWidth_above _ _ _⟩
  all_goals
    intro h
    rw [h]
    rfl

/-! ## Writes that are repeated -/

theorem writeBuf_writeBuf (buf : List Word) (k : Nat) (d e : Word) :
    writeBuf (writeBuf buf k d) k e = writeBuf buf k e :=
  List.set_set d

/-- Settles O21: the second write finds the half of VAL that it keeps, or the word that it replaces, as the first one
left it. -/
theorem dataAndControlWritesAreIdempotent : Obligations.DataAndControlWritesAreIdempotent := by
  intro s t i d hi h
  obtain rfl | rfl | rfl | ⟨k, rfl⟩ | ⟨rfl, hd⟩ := hi
  · cases h -- CTRL
    rfl
  · cases h -- VAL_LO
    simp only [exec, execWrValLo, slice_high]
  · cases h -- VAL_HI
    simp only [exec, execWrValHi, slice_low]
  · have hk : k.toNat < s.params.nBufWords := of_decide_eq_true (wf_of_exec h)
    rw [exec, execWrBuf_inside hk] at h -- BUF[k]
    cases h
    rw [exec, execWrBuf_inside (by exact hk), writeBuf_writeBuf]
  · simp only [exec, execWrStatus_eq, hd, if_true] at h ⊢ -- STATUS
    cases h
    rfl

end Sys2Proof.Proofs

/-! PROOFS. The laws of ENC and DEC (41_codec.md sections 3 and 4), from the bit string that ENC leaves. -/

namespace Sys2Proof.Proofs
open Sys2Proof Sys2Proof.Machine

/-! ## The frame of ENC -/

/-- A loop of writes from base on leaves a word that none of them names, in a buffer of any length. -/
theorem readBuf_foldl_writeBuf_other (g : List Word → Nat → Word) (base : Nat) {ks : List Nat} {j : Nat}
    (h : ∀ k ∈ ks, j ≠ base + k) (buf : List Word) :
    readBuf (ks.foldl (fun b k => writeBuf b (base + k) (g b k)) buf) j = readBuf buf j := by
  induction ks generalizing buf with
  | nil => rfl
  | cons k ks ih =>
    obtain ⟨hk, hks⟩ := List.forall_mem_cons.1 h
    rw [List.foldl_cons, ih hks, readBuf_writeBuf_other hk]

/-- ENC leaves the words beside the field. -/
theorem readBuf_encodeField_other {W G j : Nat} (h : j < fieldLo G ∨ fieldLo G + fragments W G ≤ j) (V : DWord)
    (buf : List Word) : readBuf (encodeField W G V buf) j = readBuf buf j := by
  refine readBuf_foldl_writeBuf_other _ (fieldLo G) (fun k hk => ?_) buf
  have hlt := List.mem_range.1 hk
  omega

/-- Settles O28: `encCodec` writes BUF and VIOL_COUNT only, and its loop the words of the field only. -/
theorem encChangesOnlyFieldWordsAndViolCount : Obligations.EncChangesOnlyFieldWordsAndViolCount := fun s _ _ _ h =>
  ⟨_, execEnc_accepted h, rfl, length_encodeField _ _ _ _,
    fun _ hj => readBuf_encodeField_other hj s.codec.val s.codec.buf⟩

/-! ## The laws of section 4 -/

/-- DEC reads no bit but the field's. -/
theorem decodeField_congr {W G : Nat} {a b : List Word} (hW : W ≤ 64)
    (h : ∀ g, G ≤ g → g < G + W → bitString a g = bitString b g) : decodeField W G a = decodeField W G b := by
  apply BitVec.eq_of_toNat_eq
  apply Nat.eq_of_testBit_eq
  intro j
  rw [testBit_decodeField hW, testBit_decodeField hW]
  by_cases hj : j < W
  · rw [h (G + j) (by omega) (by omega)]
  · simp [hj]

section Laws
variable {W G W' G' : Nat} {buf : List Word}

/-- Law 1: DEC after ENC of the same field gives the low W bits of the value. -/
theorem decodeField_encodeField (hW : 1 ≤ W) (hmax : W ≤ 64) (hfits : G + W ≤ 32 * buf.length) (V : DWord) :
    (decodeField W G (encodeField W G V buf)).toNat = V.toNat % 2 ^ W := by
  apply Nat.eq_of_testBit_eq
  intro j
  rw [testBit_decodeField hmax, bitString_encodeField hW hfits, Nat.testBit_mod_two_pow]
  by_cases hj : j < W
  · rw [if_pos (by omega), Nat.add_sub_cancel_left, BitVec.testBit_toNat]
  · simp [hj]

/-- Law 2: ENC does not change what DEC reads of a disjoint field. -/
theorem decodeField_encodeField_disjoint (hW : 1 ≤ W) (hfits : G + W ≤ 32 * buf.length) (hW' : W' ≤ 64)
    (hdisj : G + W ≤ G' ∨ G' + W' ≤ G) (V : DWord) :
    decodeField W' G' (encodeField W G V buf) = decodeField W' G' buf := by
  refine decodeField_congr hW' fun g hlo hhi => ?_
  rw [bitString_encodeField hW hfits, if_neg (by omega)]

/-- Law 3: ENCs of disjoint fields commute on the buffer. -/
theorem encodeField_comm (hW : 1 ≤ W) (hfits : G + W ≤ 32 * buf.length) (hW' : 1 ≤ W')
    (hfits' : G' + W' ≤ 32 * buf.length) (hdisj : G + W ≤ G' ∨ G' + W' ≤ G) (V V' : DWord) :
    encodeField W' G' V' (encodeField W G V buf) = encodeField W G V (encodeField W' G' V' buf) := by
  refine buf_ext_bits (by simp) fun g _ => ?_
  rw [bitString_encodeField hW' (by simpa using hfits'), bitString_encodeField hW hfits,
    bitString_encodeField hW (by simpa using hfits), bitString_encodeField hW' hfits']
  by_cases hg : G ≤ g ∧ g < G + W
  · rw [if_neg (by omega), if_pos hg, if_pos hg]
  · rw [if_neg hg, if_neg hg]

/-- Law 3: a second ENC of one field overwrites the first. -/
theorem encodeField_encodeField (hW : 1 ≤ W) (hfits : G + W ≤ 32 * buf.length) (V V' : DWord) :
    encodeField W G V' (encodeField W G V buf) = encodeField W G V' buf := by
  refine buf_ext_bits (by simp) fun g _ => ?_
  rw [bitString_encodeField hW (by simpa using hfits), bitString_encodeField hW hfits, bitString_encodeField hW hfits]
  split <;> rfl

end Laws

/-- A legal field lies in the bit string of a canonical buffer. -/
theorem field_fits {p : Params} {buf : List Word} {w : BitVec 7} {wo : BitVec 16} {bo : BitVec 5}
    (hwf : Memory.wf p buf = true) (h : LegalField p.nBufWords w wo bo) :
    globalOffset wo bo + w.toNat ≤ 32 * buf.length := by
  obtain ⟨_, _, hfits⟩ := h
  rwa [(memory_wf_iff _ _).1 hwf]

/-- Settles O31: `decodeField_encodeField` at the states that the two accepted commands answer. -/
theorem decAfterEncGivesTheValue : Obligations.DecAfterEncGivesTheValue := by
  intro s w wo bo hwf h
  have ⟨hpos, hmax, _⟩ := h
  exact ⟨_, _, execEnc_accepted h, execDec_accepted h, decodeField_encodeField hpos hmax (field_fits hwf h) _⟩

/-- Settles O32: `decodeField_encodeField_disjoint` at the states that the accepted commands answer. -/
theorem encKeepsDisjointFields : Obligations.EncKeepsDisjointFields := by
  intro s w1 wo1 bo1 w2 wo2 bo2 hwf h1 h2 hdisj
  have ⟨hpos1, _, _⟩ := h1
  have ⟨_, hmax2, _⟩ := h2
  exact ⟨_, _, _, execEnc_accepted h1, execDec_accepted h2, execDec_accepted h2,
    decodeField_encodeField_disjoint hpos1 (field_fits hwf h1) hmax2 hdisj _⟩

/-- Settles O33: the buffers are `encodeField_comm`; each ENC counts by its own value, so the order of the counts does
not matter. -/
theorem disjointEncsCommute : Obligations.DisjointEncsCommute := by
  intro s w1 wo1 bo1 w2 wo2 bo2 v1 v2 hwf h1 h2 hdisj
  have ⟨hpos1, _, _⟩ := h1
  have ⟨hpos2, _, _⟩ := h2
  refine ⟨_, _, _, _, execEnc_accepted h1, execEnc_accepted h2, execEnc_accepted h2, execEnc_accepted h1, ?buf, ?viol⟩
  case buf => exact encodeField_comm hpos1 (field_fits hwf h1) hpos2 (field_fits hwf h2) hdisj v1 v2
  case viol =>
    simp only [encCodec_viol, withVal_codec, encCodec_rchkEn]
    split_ifs <;> rfl

/-- Settles O34: `encodeField_encodeField` at the states that the accepted commands answer. -/
theorem secondEncOfAFieldDecides : Obligations.SecondEncOfAFieldDecides := by
  intro s w wo bo v1 v2 hwf h
  have ⟨hpos, _, _⟩ := h
  exact ⟨_, _, _, execEnc_accepted h, execEnc_accepted h, execEnc_accepted h,
    encodeField_encodeField hpos (field_fits hwf h) v1 v2⟩

end Sys2Proof.Proofs
